-- ==== Sys2Proof/Word.lean ====
section
/-! DEFINITION. The machine's words: a byte (registers, cells, operands) and the 9-bit program counter. -/

namespace Sys2Proof

/-- A register value, a memory cell or an instruction byte: unsigned, 0..255 (R6, R11, R12). -/
abbrev Byte := BitVec 8

/-- The program counter: 9 bits, so that 256 is representable (R14, decision D2 of the spec; log 2). -/
abbrev Pc := BitVec 9

end Sys2Proof
end

