-- ==== Sys2Proof/Config.lean ====
section
/-! DEFINITION. What is fixed before a run: the parameters of rule R5.
The values of the two OPEN parameters of the spec stand where a repair may mend them: the opcode bytes
(`opcodeMap`) in Sys2Proof/Decode.lean, the flag positions (`Machine.flagLayout`) in Sys2Proof/Machine/Flags.lean. -/

namespace Sys2Proof

namespace Config

/-- `MEM_SIZE`: 256 cells (R5, R11). -/
@[simp, reducible] def memSize : Nat := 256

/-- `NREG`: eight general registers (R5, R12). -/
@[simp, reducible] def numRegs : Nat := 8

/-- `SP_RESET`: 0xF4 (R5, R22). -/
@[simp, reducible] def spReset : Byte := 0xF4#8

/-- `PC_RESET`: 0 (R5, R22; decision D3 of the spec; log 3). -/
@[simp, reducible] def pcReset : Pc := 0#9

/-- `LOAD_BASE`: the image is written from address 0 (R5, R141). -/
@[simp, reducible] def loadBase : Nat := 0

end Config

/-- The thirteen rows of the opcode table, by name (R54). -/
inductive Op where
  | hlt | ldi | prn | add | mul | cmp | jmp | jeq | jne | push | pop | call | ret
  deriving DecidableEq, Repr

/-- The opcode parameters `OPC_HLT` .. `OPC_RET` (R5, R56; decision D5 of the spec; log 1). -/
structure OpcodeMap where
  hlt : Byte
  ldi : Byte
  prn : Byte
  add : Byte
  mul : Byte
  cmp : Byte
  jmp : Byte
  jeq : Byte
  jne : Byte
  push : Byte
  pop : Byte
  call : Byte
  ret : Byte
  deriving DecidableEq, Repr

/-- The flag positions `FL_E`, `FL_G`, `FL_L`, each a bit of the 8-bit register `FL` (R5, R16; decision D4 of the
spec; log 4). That they are distinct is `FlagLayout.Distinct`. -/
structure FlagLayout where
  e : Fin 8
  g : Fin 8
  l : Fin 8
  deriving DecidableEq, Repr

end Sys2Proof
end

