-- ==== Sys2Proof/Machine/State.lean ====
section
/-! DEFINITION. The state of the core as plain data, its value right after reset, and the reasons a step can stop. -/

namespace Sys2Proof.Machine

/-- The run state `RUN` (R18). -/
inductive RunState where
  | running
  | halted
  | faulted
  deriving DecidableEq, Repr

/-- The three exceptions of the core (R160). -/
inductive Cause where
  /-- A memory address outside 0..255 (R161). -/
  | outOfBounds
  /-- A register-index operand of 8 or more (R162). -/
  | invalidRegister
  /-- An opcode byte not in the opcode table (R163). -/
  | illegalInstruction
  deriving DecidableEq, Repr

/-- What `raise` is given: a cause and its `info` (R7, R168). -/
structure Exn where
  cause : Cause
  info : Int
  deriving DecidableEq, Repr

/-- The fault record `FAULT` (R19). -/
structure FaultRecord where
  cause : Cause
  pc : Pc
  info : Int
  deriving DecidableEq, Repr

/-- The flags register `FL`: its three meaningful bits (R16). No instruction reads or writes `FL` as a byte;
the byte a host sees is `Flags.toByte` (log 4). -/
structure Flags where
  e : Bool
  g : Bool
  l : Bool
  deriving DecidableEq, Repr

/-- `MEM` as its non-zero cells, addresses strictly rising (`Memory.wf`); an unlisted cell reads as 0,
which is what every cell holds after reset (R11, R22). -/
abbrev Memory := List Host.Cell

/-- The index of a general register, 0..7 (R12). -/
abbrev RegIdx := Fin 8

/-- The state: R10's list, and the output stream beside it (R20; log 11). -/
structure State where
  /-- `MEM` (R11). -/
  mem : Memory
  /-- `x[0]`..`x[7]`; `x[7]` is the stack pointer (R12, R13). -/
  regs : Vector Byte 8
  /-- The program counter (R14). -/
  pc : Pc
  /-- The flags register `FL` (R16, R17). -/
  fl : Flags
  /-- The run state `RUN` (R18). -/
  run : RunState
  /-- The fault record `FAULT`, `none` while it is empty (R19). -/
  fault : Option FaultRecord
  /-- The output stream `OUT`, oldest first (R20). -/
  out : List Byte
  deriving DecidableEq, Repr

/-- The machine right after reset, nothing loaded (R22): memory zero, `x[0..6] = 0`, `x[7] = 0xF4`,
`pc = 0` (D3), `FL = 0` (D4), Running, no fault, no output. -/
def State.reset : State where
  mem := []
  regs := #v[0#8, 0#8, 0#8, 0#8, 0#8, 0#8, 0#8, Config.spReset]
  pc := Config.pcReset
  fl := { e := false, g := false, l := false }
  run := .running
  fault := none
  out := []

/-- Why the machine takes no step. The core's own exceptions are no such stop: they are taken, as a next
state (`raise`). -/
inductive Fault where
  /-- Raised by `step` alone, when `RUN = Halted`: that state is terminal and has no step (R71).
  Safe: the hardware does nothing here either (log 10). -/
  | halted
  /-- Raised by `step` alone, when `RUN = Faulted`: that state is terminal and has no step (R71, R170).
  Safe: the hardware does nothing here either (log 10). -/
  | faulted
  deriving DecidableEq, Repr

/-- Why the model gives no meaning. -/
inductive Refusal where
  /-- An instruction with no meaning yet; raised by an arm of `exec` only. No arm raises it. Safe. -/
  | notModelled (mnemonic : String)
  /-- Raised by `init` alone: an image of more than 256 bytes is refused and no run starts (R142). Safe. -/
  | imageTooLong (length : Nat)
  deriving DecidableEq, Repr

end Sys2Proof.Machine
end

