-- ==== Sys2Proof/Machine/Ops.lean ====
section
/-! DEFINITION. The named operations over memory, registers, the stack and the program counter, and taking an exception. -/

namespace Sys2Proof.Machine

/-- The outcome of a step or of a meaning. -/
abbrev Result := Host.Outcome State Fault Refusal

/-! ### Memory (R11, R31, R32) -/

/-- What a cell that is not listed holds: 0, the reset contents (R22). -/
def unlistedByte : Byte := 0#8

/-- The contents of the cell at an address. -/
def Memory.read : Memory → Nat → Byte
  | [], _ => unlistedByte
  | (b, v) :: rest, a => if b = a then v else Memory.read rest a

/-- Put an entry at its place in a list of rising addresses. -/
def Memory.insert (a : Nat) (v : Byte) : Memory → Memory
  | [] => [(a, v)]
  | (b, w) :: rest => if a < b then (a, v) :: (b, w) :: rest else (b, w) :: Memory.insert a v rest

/-- Set the cell at an address, keeping the canonical form: 0 is stored by listing nothing. -/
def Memory.write (m : Memory) (a : Nat) (v : Byte) : Memory :=
  let others := m.filter fun c => c.1 != a
  if v = unlistedByte then others else Memory.insert a v others

/-- The canonical form: addresses strictly rising, all in 0..255, no entry equal to an unlisted cell. -/
abbrev Memory.wf (m : Memory) : Prop :=
  List.Pairwise (fun c d : Host.Cell => c.1 < d.1) m ∧
    ∀ c ∈ m, c.1 < Config.memSize ∧ c.2 ≠ unlistedByte

/-- Write a run of bytes at rising addresses from `a`; bytes at 256 and above have no cell. -/
def Memory.place (a : Nat) : List Byte → Memory → Memory
  | [], m => m
  | b :: rest, m => Memory.place (a + 1) rest (if a < Config.memSize then m.write a b else m)

/-! ### The exceptions (R160 to R163, R168) -/

/-- `OutOfBounds(addr)` (R161). -/
def Exn.outOfBounds (addr : Int) : Exn := { cause := .outOfBounds, info := addr }

/-- `InvalidRegister(operand)` (R162). -/
def Exn.invalidRegister (operand : Byte) : Exn := { cause := .invalidRegister, info := operand.toNat }

/-- `IllegalInstruction(opcode)` (R163). -/
def Exn.illegalInstruction (opcode : Byte) : Exn := { cause := .illegalInstruction, info := opcode.toNat }

/-- The numeric code of a cause (R160; decision D7 of the spec). -/
def Cause.code : Cause → Nat
  | .outOfBounds => 1
  | .invalidRegister => 2
  | .illegalInstruction => 3

/-- Taking an exception, `raise E(info)`: `FAULT <- (E, pc0, info)`, `RUN <- Faulted`, nothing else; control
goes nowhere (R168). It is applied to the state the step began in, so `pc0` is its `pc`. There is no return
from it (R170). -/
def raise (e : Exn) (s : State) : State :=
  { s with run := .faulted, fault := some { cause := e.cause, pc := s.pc, info := e.info } }

/-- How an instruction ends: with the state its handler built, or, where a check failed, with the exception
taken from the state the step began in, so that a faulting instruction writes nothing else (R78, R167). -/
def complete (s : State) : Except Exn State → Result
  | .ok t => .next t
  | .error e => .next (raise e s)

/-! ### Memory accesses (R31, R32) -/

/-- `MemRead(addr, 1)` (R31). -/
def memRead (addr : Int) (s : State) : Except Exn Byte :=
  if addr < 0 ∨ (Config.memSize : Int) ≤ addr then .error (.outOfBounds addr)
  else .ok (s.mem.read addr.toNat)

/-- `MemWrite(addr, 1, v)` (R32). -/
def memWrite (addr : Int) (v : Byte) (s : State) : Except Exn State :=
  if addr < 0 ∨ (Config.memSize : Int) ≤ addr then .error (.outOfBounds addr)
  else .ok { s with mem := s.mem.write addr.toNat v }

/-! ### Registers (R12, R13) -/

/-- `x[i]` (R7, R12). -/
def State.getReg (s : State) (i : RegIdx) : Byte := s.regs[i]

/-- `x[i] <- v` (R7, R12). -/
def State.setReg (s : State) (i : RegIdx) (v : Byte) : State := { s with regs := s.regs.set i v }

/-- The register that is the stack pointer (`SP_REG`, R5, R13). -/
def spReg : RegIdx := 7

/-- `SP`, which is `x[7]` (R13). -/
def State.sp (s : State) : Byte := s.getReg spReg

/-- `SP <- v`. -/
def State.setSp (s : State) (v : Byte) : State := s.setReg spReg v

/-! ### The program counter, the flags and the output (R7, R15, R17, R143) -/

/-- A byte as a program counter value (R7). -/
def zext9 (v : Byte) : Pc := v.setWidth 9

/-- `pc <- target`. -/
def State.setPc (s : State) (target : Pc) : State := { s with pc := target }

/-- `pc <- pc + n`, the fall-through of an instruction of n bytes (R15, R77). It never wraps from a pc at
which n bytes could be fetched (R14; log 2); at a `pc` above 256, which no run reaches, it wraps at 512
(log 22). -/
def State.advance (s : State) (n : Nat) : State := s.setPc (s.pc + BitVec.ofNat 9 n)

/-- `FL <- f`, all three bits (R17). -/
def State.setFl (s : State) (f : Flags) : State := { s with fl := f }

/-- `RUN <- Halted` (R90). -/
def State.halt (s : State) : State := { s with run := .halted }

/-- `emit(v)`: append to `OUT` (R143). -/
def State.emit (s : State) (v : Byte) : State := { s with out := s.out ++ [v] }

/-! ### The stack (R120, R125, R129) -/

/-- `SP <- SP - 1`; at 0 it raises `OutOfBounds(-1)` (R125; decision D9 of the spec). -/
def decSp (s : State) : Except Exn State :=
  if s.sp = 0#8 then .error (.outOfBounds (-1)) else .ok (s.setSp (s.sp - 1#8))

/-- `SP <- SP + 1`; at 255 it raises `OutOfBounds(256)` (R125; decision D9 of the spec). -/
def incSp (s : State) : Except Exn State :=
  if s.sp = 255#8 then .error (.outOfBounds 256) else .ok (s.setSp (s.sp + 1#8))

/-- Decrement `SP`, then write at the new `SP`; the value is computed after the decrement (R121, R123, D11). -/
def pushByte (value : State → Byte) (s : State) : Except Exn State := do
  let t ← decSp s
  memWrite t.sp.toNat (value t) t

/-- The byte at `SP`: the read of a pop (R122, R124). -/
def stackTop (s : State) : Except Exn Byte := memRead s.sp.toNat s

end Sys2Proof.Machine
end

