-- ==== Sys2Proof/Machine/Operands.lean ====
section
/-! DEFINITION. The two operand forms (R53): a register index and an immediate. -/

namespace Sys2Proof.Machine

/-- A register operand: the whole byte is the index, not masked; 8 or more raises `InvalidRegister(operand)`
(R53, R76). -/
def regOperand (operand : Byte) : Except Exn RegIdx :=
  if h : operand.toNat < 8 then .ok ⟨operand.toNat, h⟩ else .error (.invalidRegister operand)

/-- An immediate operand: the byte as it is (R53). -/
def immOperand (operand : Byte) : Byte := operand

end Sys2Proof.Machine
end

