-- ==== Sys2Proof/Machine/Alu.lean ====
section
/-! DEFINITION. ADD, MUL (42_alu.md). Byte arithmetic wraps modulo 256 and sets no flag (R102, R17). -/

namespace Sys2Proof.Machine

/-- The shape of the two: both operands are read, then the first register is written (R100, R101). -/
def aluOp (f : Byte → Byte → Byte) (a b : Byte) (s : State) : Except Exn State := do
  let ra ← regOperand a
  let rb ← regOperand b
  .ok ((s.setReg ra (f (s.getReg ra) (s.getReg rb))).advance 3)

/-- ADD regA, regB: `x[a] <- (x[a] + x[b]) mod 256` (R100). -/
def execAdd (a b : Byte) (s : State) : Result := complete s (aluOp (fun x y => x + y) a b s)

/-- MUL regA, regB: `x[a] <- (x[a] * x[b]) mod 256` (R101). -/
def execMul (a b : Byte) (s : State) : Result := complete s (aluOp (fun x y => x * y) a b s)

end Sys2Proof.Machine
end

