-- ==== Sys2Proof/Machine/Flags.lean ====
section
/-! DEFINITION. The flags: what CMP computes, and the byte a host sees (R16, R17, R110). -/

namespace Sys2Proof

/-- The one constraint on the flag positions: three distinct ones (R5). -/
abbrev FlagLayout.Distinct (p : FlagLayout) : Prop := p.e ≠ p.g ∧ p.e ≠ p.l ∧ p.g ≠ p.l

namespace Machine

/-- `{E}` (R7). -/
def flagsE : Flags := { e := true, g := false, l := false }

/-- `{G}` (R7). -/
def flagsG : Flags := { e := false, g := true, l := false }

/-- `{L}` (R7). -/
def flagsL : Flags := { e := false, g := false, l := true }

/-- The flags of a comparison of `x` with `y`, as unsigned bytes: exactly one bit (R110; the direction and
the signedness are decision D6 of the spec). -/
def compareFlags (x y : Byte) : Flags :=
  if x = y then flagsE else if y.toNat < x.toNat then flagsG else flagsL

/-- `00000LGE`: the default positions (R16; PRESUMED from general knowledge, D4, log 4). -/
def flagLayout : FlagLayout := { e := 0, g := 1, l := 2 }

/-- A flag as a byte with that one bit. -/
def flagBit (set : Bool) (position : Fin 8) : Byte :=
  if set then BitVec.ofNat 8 (2 ^ position.val) else 0#8

/-- `FL` as a byte under a layout; every other bit reads 0 (R16). -/
def Flags.toByteWith (p : FlagLayout) (f : Flags) : Byte :=
  flagBit f.e p.e ||| flagBit f.g p.g ||| flagBit f.l p.l

/-- `FL` as a byte, `00000LGE` (R16). -/
def Flags.toByte (f : Flags) : Byte := f.toByteWith flagLayout

end Machine

end Sys2Proof
end

