-- ==== Sys2Proof/Machine/CompareBranch.lean ====
section
/-! DEFINITION. CMP, JMP, JEQ, JNE (43_compare_branch.md). -/

namespace Sys2Proof.Machine

/-- CMP regA, regB: `FL` is replaced whole (R110). -/
def execCmp (a b : Byte) (s : State) : Result := complete s do
  let ra ← regOperand a
  let rb ← regOperand b
  .ok ((s.setFl (compareFlags (s.getReg ra) (s.getReg rb))).advance 3)

/-- A jump to the address in a register when `taken`, else the fall-through of a two-byte instruction. The
register operand is checked either way (R76, R114). -/
def jumpIf (taken : Bool) (a : Byte) (s : State) : Except Exn State := do
  let ra ← regOperand a
  .ok (if taken then s.setPc (zext9 (s.getReg ra)) else s.advance 2)

/-- JMP reg (R111). -/
def execJmp (a : Byte) (s : State) : Result := complete s (jumpIf true a s)

/-- JEQ reg: jump if `FL.E = 1` (R112). -/
def execJeq (a : Byte) (s : State) : Result := complete s (jumpIf s.fl.e a s)

/-- JNE reg: jump if `FL.E = 0` (R113). -/
def execJne (a : Byte) (s : State) : Result := complete s (jumpIf (!s.fl.e) a s)

end Sys2Proof.Machine
end

