-- ==== Sys2Proof/Machine/Glue.lean ====
section
/-! DEFINITION. HLT, LDI, PRN (41_glue.md). -/

namespace Sys2Proof.Machine

/-- HLT: `RUN <- Halted`; `pc` is not written (R90, C1). -/
def execHlt (s : State) : Result := complete s (.ok s.halt)

/-- LDI reg, imm8: `x[a] <- b` (R91). -/
def execLdi (a b : Byte) (s : State) : Result := complete s do
  let ra ← regOperand a
  .ok ((s.setReg ra (immOperand b)).advance 3)

/-- PRN reg: `emit(x[a])` (R92). -/
def execPrn (a : Byte) (s : State) : Result := complete s do
  let ra ← regOperand a
  .ok ((s.emit (s.getReg ra)).advance 2)

end Sys2Proof.Machine
end

