-- ==== Sys2Proof/Machine/StackSubroutine.lean ====
section
/-! DEFINITION. PUSH, POP, CALL, RET (44_stack_subroutine.md). The actions take effect in the order written,
each seeing the one before (decision D11 of the spec, for the forms that name register 7). -/

namespace Sys2Proof.Machine

/-- PUSH reg: `SP` is decremented, then `x[a]` is read and stored at the new `SP` (R121). -/
def execPush (a : Byte) (s : State) : Result := complete s do
  let ra ← regOperand a
  let t ← pushByte (fun u => u.getReg ra) s
  .ok (t.advance 2)

/-- POP reg: `x[a] <- MEM[SP]`, then `SP` as it then stands is incremented (R122). -/
def execPop (a : Byte) (s : State) : Result := complete s do
  let ra ← regOperand a
  let v ← stackTop s
  let t ← incSp (s.setReg ra v)
  .ok (t.advance 2)

/-- The return address `pc + 2` as a byte; 256 is no address and raises `OutOfBounds(256)` (R123; decision
D10 of the spec). -/
def returnAddress (s : State) : Except Exn Byte :=
  if 255 < s.pc.toNat + 2 then .error (.outOfBounds 256) else .ok (BitVec.ofNat 8 (s.pc.toNat + 2))

/-- CALL reg: push the return address, then `pc <- x[a]`, read after the push (R123). -/
def execCall (a : Byte) (s : State) : Result := complete s do
  let ra ← regOperand a
  let ret ← returnAddress s
  let t ← pushByte (fun _ => ret) s
  .ok (t.setPc (zext9 (t.getReg ra)))

/-- RET: `pc <- MEM[SP]`, `SP <- SP + 1` (R124). -/
def execRet (s : State) : Result := complete s do
  let v ← stackTop s
  let t ← incSp s
  .ok (t.setPc (zext9 v))

end Sys2Proof.Machine
end

