-- ==== Sys2Proof/Syntax.lean ====
section
/-! DEFINITION. The instructions: one constructor per row of spec/opcode_table.json (R54).
An operand is the whole byte that follows the opcode, not masked (R53): a register operand of 8 or more is
a term of this type, which `Instr.wellFormed` refuses and on which the machine raises InvalidRegister (R76). -/

namespace Sys2Proof

inductive Instr where
  /-- HLT (R90). -/
  | hlt
  /-- LDI reg, imm8: `a` the register index, `b` the immediate (R91). -/
  | ldi (a b : Byte)
  /-- PRN reg (R92). -/
  | prn (a : Byte)
  /-- ADD regA, regB (R100). -/
  | add (a b : Byte)
  /-- MUL regA, regB (R101). -/
  | mul (a b : Byte)
  /-- CMP regA, regB (R110). -/
  | cmp (a b : Byte)
  /-- JMP reg (R111). -/
  | jmp (a : Byte)
  /-- JEQ reg (R112). -/
  | jeq (a : Byte)
  /-- JNE reg (R113). -/
  | jne (a : Byte)
  /-- PUSH reg (R121). -/
  | push (a : Byte)
  /-- POP reg (R122). -/
  | pop (a : Byte)
  /-- CALL reg (R123). -/
  | call (a : Byte)
  /-- RET (R124). -/
  | ret
  deriving DecidableEq, Repr

end Sys2Proof
end

