-- ==== Sys2Proof/WellFormed.lean ====
section
/-! DEFINITION. Which instructions are well formed: every register operand is an index 0..7 (R53, R76). -/

namespace Sys2Proof

/-- A register operand is valid when the whole byte is 0..7 (R53). -/
def validReg (operand : Byte) : Bool := decide (operand.toNat < Config.numRegs)

/-- Every register operand is valid; every immediate is (R53). -/
def Instr.wellFormed : Instr → Bool
  | .hlt => true
  | .ldi a _ => validReg a
  | .prn a => validReg a
  | .add a b => validReg a && validReg b
  | .mul a b => validReg a && validReg b
  | .cmp a b => validReg a && validReg b
  | .jmp a => validReg a
  | .jeq a => validReg a
  | .jne a => validReg a
  | .push a => validReg a
  | .pop a => validReg a
  | .call a => validReg a
  | .ret => true

end Sys2Proof
end

