-- ==== Sys2Proof/Decode.lean ====
section
/-! DEFINITION. The decoder and the encoder (30_encoding.md), for any opcode map and for the default one. -/

namespace Sys2Proof

/-- The opcode bytes of rule R54. HLT, LDI and PRN are the source's (R55); the other ten are the spec's
defaults from general knowledge (R56, D5; PRESUMED, log 1). -/
def opcodeMap : OpcodeMap where
  hlt := 0b00000001#8
  ldi := 0b10000010#8
  prn := 0b01000111#8
  add := 0b10100000#8
  mul := 0b10100010#8
  cmp := 0b10100111#8
  jmp := 0b01010100#8
  jeq := 0b01010101#8
  jne := 0b01010110#8
  push := 0b01000101#8
  pop := 0b01000110#8
  call := 0b01010000#8
  ret := 0b00010001#8

/-- The opcode byte a map gives a row of the table. -/
def OpcodeMap.code (m : OpcodeMap) : Op → Byte
  | .hlt => m.hlt
  | .ldi => m.ldi
  | .prn => m.prn
  | .add => m.add
  | .mul => m.mul
  | .cmp => m.cmp
  | .jmp => m.jmp
  | .jeq => m.jeq
  | .jne => m.jne
  | .push => m.push
  | .pop => m.pop
  | .call => m.call
  | .ret => m.ret

/-- The rows of the opcode table, in its order (R54). -/
def allOps : List Op :=
  [.hlt, .ldi, .prn, .add, .mul, .cmp, .jmp, .jeq, .jne, .push, .pop, .call, .ret]

/-- The one constraint on an opcode map: the 13 values are pairwise distinct (R5, R56). -/
abbrev OpcodeMap.Distinct (m : OpcodeMap) : Prop :=
  ∀ p ∈ allOps, ∀ q ∈ allOps, m.code p = m.code q → p = q

/-- The row the dispatcher finds for an opcode byte: a match on all 8 bits, or none (R57, R74). -/
def OpcodeMap.lookup (m : OpcodeMap) (opcode : Byte) : Option Op :=
  allOps.find? fun op => m.code op == opcode

/-- Format F0: no operand byte is read (R50, R75). -/
def operandsF0 {ε : Type} (i : Instr) : Except ε Instr := .ok i

/-- Format F1: operand `a` is byte 1 (R50, R52, R75). -/
def operandsF1 {ε : Type} (read : Nat → Except ε Byte) (build : Byte → Instr) : Except ε Instr :=
  match read 1 with
  | .error e => .error e
  | .ok a => .ok (build a)

/-- Format F2: operand `a` is byte 1, then `b` is byte 2 (R50, R52, R75). -/
def operandsF2 {ε : Type} (read : Nat → Except ε Byte) (build : Byte → Byte → Instr) : Except ε Instr :=
  match read 1 with
  | .error e => .error e
  | .ok a =>
    match read 2 with
    | .error e => .error e
    | .ok b => .ok (build a b)

/-- After the opcode: exactly as many operand bytes as the row has, `a` before `b` (R54, R75). -/
def operandFetch {ε : Type} (read : Nat → Except ε Byte) : Op → Except ε Instr
  | .hlt => operandsF0 .hlt
  | .ldi => operandsF2 read .ldi
  | .prn => operandsF1 read .prn
  | .add => operandsF2 read .add
  | .mul => operandsF2 read .mul
  | .cmp => operandsF2 read .cmp
  | .jmp => operandsF1 read .jmp
  | .jeq => operandsF1 read .jeq
  | .jne => operandsF1 read .jne
  | .push => operandsF1 read .push
  | .pop => operandsF1 read .pop
  | .call => operandsF1 read .call
  | .ret => operandsF0 .ret

/-- The decoder, over any way of reading the instruction's byte number k: read the opcode, look it up,
reject an absent one before any operand is read, then fetch the operands (R72, R74, R75). -/
def decodeFrom {ε : Type} (m : OpcodeMap) (read : Nat → Except ε Byte) (illegal : Byte → ε) :
    Except ε Instr :=
  match read 0 with
  | .error e => .error e
  | .ok opcode =>
    match m.lookup opcode with
    | none => .error (illegal opcode)
    | some op => operandFetch read op

/-- Why bytes do not decode. -/
inductive DecodeError where
  /-- The list ends before the instruction's byte number `index`. -/
  | missingByte (index : Nat)
  /-- The first byte is no opcode of the table (R58). -/
  | illegalOpcode (opcode : Byte)
  deriving DecidableEq, Repr

/-- The row an instruction belongs to. -/
def Instr.op : Instr → Op
  | .hlt => .hlt
  | .ldi _ _ => .ldi
  | .prn _ => .prn
  | .add _ _ => .add
  | .mul _ _ => .mul
  | .cmp _ _ => .cmp
  | .jmp _ => .jmp
  | .jeq _ => .jeq
  | .jne _ => .jne
  | .push _ => .push
  | .pop _ => .pop
  | .call _ => .call
  | .ret => .ret

/-- The operand bytes, in the order in which they follow the opcode (R52). -/
def Instr.operands : Instr → List Byte
  | .hlt => []
  | .ldi a b => [a, b]
  | .prn a => [a]
  | .add a b => [a, b]
  | .mul a b => [a, b]
  | .cmp a b => [a, b]
  | .jmp a => [a]
  | .jeq a => [a]
  | .jne a => [a]
  | .push a => [a]
  | .pop a => [a]
  | .call a => [a]
  | .ret => []

/-- The length in bytes: the opcode and the operands (R50, R51). -/
def Instr.length (i : Instr) : Nat := i.operands.length + 1

/-- Byte number k of a list, or the name of what is missing. -/
def byteAt (bytes : List Byte) (k : Nat) : Except DecodeError Byte :=
  match bytes[k]? with
  | none => .error (.missingByte k)
  | some b => .ok b

/-- Decode the instruction at the head of a list of bytes; the rest of the list comes with it. -/
def decodeWith (m : OpcodeMap) (bytes : List Byte) : Except DecodeError (Instr × List Byte) :=
  match decodeFrom m (byteAt bytes) .illegalOpcode with
  | .error e => .error e
  | .ok i => .ok (i, bytes.drop i.length)

/-- The decoder of the default opcode map. -/
def decode (bytes : List Byte) : Except DecodeError (Instr × List Byte) := decodeWith opcodeMap bytes

/-- The bytes of an instruction: the opcode at the lowest address, then the operands (R35, R50). -/
def encodeWith (m : OpcodeMap) (i : Instr) : List Byte := m.code i.op :: i.operands

/-- The encoder of the default opcode map. -/
def encode (i : Instr) : List Byte := encodeWith opcodeMap i

/-- The three bytes an opcode-table word stands for, the first byte from bits 7..0, with every bit from
`nbits` up taken as 0. Three bytes are the longest instruction (R50). -/
def tableBytes (nbits w : Nat) : List Byte :=
  [BitVec.ofNat 8 (w % 2 ^ nbits),
   BitVec.ofNat 8 (w % 2 ^ nbits / 2 ^ 8),
   BitVec.ofNat 8 (w % 2 ^ nbits / 2 ^ 16)]

/-- The instruction the decoder reads from an opcode-table word. -/
def decodeTableWord (nbits w : Nat) : Option Instr :=
  match decode (tableBytes nbits w) with
  | .ok (i, _) => some i
  | .error _ => none

end Sys2Proof
end

