-- ==== Sys2Proof/Machine/Fetch.lean ====
section
/-! DEFINITION. Fetching the instruction at the program counter (R72 to R75), and placing one there. -/

namespace Sys2Proof.Machine

/-- Byte number k of the instruction at `pc`: `MemRead(pc + k, 1)`, computed without wrap (R73, R75). -/
def fetchByte (s : State) (k : Nat) : Except Exn Byte := memRead ((s.pc.toNat + k : Nat) : Int) s

/-- Fetch, decode and operand fetch under an opcode map: the first failing check is the exception (R72, R79). -/
def fetchWith (m : OpcodeMap) (s : State) : Except Exn Instr :=
  decodeFrom m (fetchByte s) Exn.illegalInstruction

/-- Fetch under the default opcode map. -/
def fetch (s : State) : Except Exn Instr := fetchWith opcodeMap s

/-- The state with these bytes at `pc` and a core that is about to fetch them: Running, with an empty fault
record, as after `Init` (R141; log 13). Bytes that would lie at 256 or above have no cell. -/
def placeAtPc (bytes : List Byte) (s : State) : State :=
  { s with mem := Memory.place s.pc.toNat bytes s.mem, run := .running, fault := none }

end Sys2Proof.Machine
end

