-- ==== Sys2Proof/Machine/Interface.lean ====
section
/-! DEFINITION. What crosses the boundary of the core (50_interfaces.md): `Init`, the output, the status. -/

namespace Sys2Proof.Machine

/-- `Init(image)`: from an image to the initial state, or a refusal when the image has more than 256 bytes
(R141, R142). It is an event before the first step, and it keeps nothing of an earlier run (R190), so it takes
no state (log 12). -/
def init (image : List Byte) : Result :=
  if image.length ≤ Config.memSize then
    .next { State.reset with mem := Memory.place Config.loadBase image State.reset.mem }
  else .refused (.imageTooLong image.length)

/-- The decimal numeral of a byte, unsigned, without sign and without leading zeros (R144; decision D16 of the spec). -/
def decimalNumeral (v : Byte) : List Char :=
  let n := v.toNat
  if n < 10 then [n.digitChar]
  else if n < 100 then [(n / 10).digitChar, (n % 10).digitChar]
  else [(n / 100).digitChar, (n / 10 % 10).digitChar, (n % 10).digitChar]

/-- The lines the host has printed: one numeral per emitted byte. How a line ends is the host's (R144; log 14). -/
def State.outLines (s : State) : List (List Char) := s.out.map decimalNumeral

/-- The status the host observes: `RUN`, and `FAULT` when the run faulted (R145). -/
def State.status (s : State) : RunState × Option FaultRecord :=
  (s.run, if s.run = .faulted then s.fault else none)

/-- The flags register as the byte a host reads in the frozen state (R16, R146). -/
def State.flByte (s : State) : Byte := s.fl.toByte

end Sys2Proof.Machine
end

