-- ==== Sys2Proof/Machine/Step.lean ====
section
/-! DEFINITION. One step of the core (R71, R72). -/

namespace Sys2Proof.Machine

/-- One step under an opcode map: fetch, decode and execute one instruction, or take the exception the fetch
raised. In Halted and in Faulted there is no step (R71; log 10). -/
def stepWith (m : OpcodeMap) (s : State) : Host.Outcome State Fault Refusal :=
  match s.run with
  | .halted => .fault .halted
  | .faulted => .fault .faulted
  | .running =>
    match fetchWith m s with
    | .error e => .next (raise e s)
    | .ok i => exec i s

/-- One step of the core, with the opcode bytes of rule R54. -/
def step (s : State) : Host.Outcome State Fault Refusal := stepWith opcodeMap s

/-- `s` with the instruction of an opcode-table word stored at `pc`, so that the next step runs it (log 13). -/
def State.withFetchWord (s : State) (nbits w : Nat) : State := placeAtPc (tableBytes nbits w) s

end Sys2Proof.Machine
end

