-- ==== Sys2Proof/Safety.lean ====
section
/-! DEFINITION. The terms the claims use: what a fault is, what stays the same, the invariant, and the list of
the ways a step can fault, written from the spec's tables and not from the machine's functions. -/

namespace Sys2Proof.Machine

/-- The operand byte that names a register: its index (R53). The bytes 0..7 are exactly these. -/
def regByte (r : RegIdx) : Byte := BitVec.ofNat 8 r.val

/-- The outcome is the exception `cause(info)`, taken from `s` as R168 says: the fault record is written with
the `pc` of `s`, `RUN` becomes Faulted, and nothing else changes. -/
def Faults (s : State) (cause : Cause) (info : Int) (r : Result) : Prop :=
  r = .next { s with run := .faulted, fault := some { cause := cause, pc := s.pc, info := info } }

/-- No step leads on from `s`. -/
def NoStep (s : State) : Prop := ∀ t, step s ≠ .next t

/-- Every register but the listed ones holds what it held. -/
def SameRegsExcept (written : List RegIdx) (s t : State) : Prop :=
  ∀ r, r ∉ written → t.getReg r = s.getReg r

/-- Every cell but the listed ones reads as before. -/
def SameMemExcept (written : List Nat) (s t : State) : Prop :=
  ∀ a, a ∉ written → t.mem.read a = s.mem.read a

/-- Flags, output, run state and fault record are unchanged. -/
def SameControl (s t : State) : Prop :=
  t.fl = s.fl ∧ t.out = s.out ∧ t.run = s.run ∧ t.fault = s.fault

/-- The bytes of memory from `pc` up to the last cell. -/
def bytesAtPc (s : State) : List Byte :=
  (List.range (256 - s.pc.toNat)).map fun k => s.mem.read (s.pc.toNat + k)

/-- In every running state whose `pc` holds this opcode so near the end that one of the instruction's
`length` bytes would lie at 256, the step raises `OutOfBounds(256)` (R75). -/
def OperandPastEndFaults (opcode : Byte) (length : Nat) : Prop :=
  ∀ s : State, s.run = .running → s.pc.toNat ≤ 255 → s.mem.read s.pc.toNat = opcode →
    256 < s.pc.toNat + length → Faults s .outOfBounds 256 (step s)

/-- One instruction executed k times in a row. -/
def repeatExec (i : Instr) : Nat → State → Result
  | 0, s => .next s
  | k + 1, s =>
    match exec i s with
    | .next t => repeatExec i k t
    | .fault f => .fault f
    | .refused r => .refused r

/-! ### The ways a step can fault (R79, R161, R162, R163) -/

/-- The opcode bytes with no operand: HLT, RET (R54). -/
def opcodesF0 : List Byte := [0x01#8, 0x11#8]

/-- The opcode bytes with one operand: PRN, JMP, JEQ, JNE, PUSH, POP, CALL (R54). -/
def opcodesF1 : List Byte := [0x47#8, 0x54#8, 0x55#8, 0x56#8, 0x45#8, 0x46#8, 0x50#8]

/-- The opcode bytes with two register operands: ADD, MUL, CMP (R54). -/
def opcodesRegReg : List Byte := [0xA0#8, 0xA2#8, 0xA7#8]

/-- The opcode bytes with two operands: LDI and the three above (R54). -/
def opcodesF2 : List Byte := 0x82#8 :: opcodesRegReg

/-- The first check of R79 that fails in a running state with `pc` at most 256, with what it reports; none if
the step completes. -/
def listedFault (s : State) : Option (Cause × Int) :=
  let pc := s.pc.toNat
  let opcode := s.mem.read pc
  let a := s.mem.read (pc + 1)
  let b := s.mem.read (pc + 2)
  if pc = 256 then some (.outOfBounds, 256)
  else if opcode ∉ opcodesF0 ++ opcodesF1 ++ opcodesF2 then some (.illegalInstruction, opcode.toNat)
  else if opcode ∈ opcodesF1 ++ opcodesF2 ∧ pc = 255 then some (.outOfBounds, 256)
  else if opcode ∈ opcodesF2 ∧ pc = 254 then some (.outOfBounds, 256)
  else if opcode ∈ opcodesF1 ++ opcodesF2 ∧ 8 ≤ a.toNat then some (.invalidRegister, a.toNat)
  else if opcode ∈ opcodesRegReg ∧ 8 ≤ b.toNat then some (.invalidRegister, b.toNat)
  else if opcode = 0x50#8 ∧ pc = 254 then some (.outOfBounds, 256)
  else if (opcode = 0x45#8 ∨ opcode = 0x50#8) ∧ s.sp = 0#8 then some (.outOfBounds, -1)
  else if (opcode = 0x11#8 ∨ opcode = 0x46#8 ∧ a ≠ 7#8) ∧ s.sp = 255#8 then some (.outOfBounds, 256)
  else if opcode = 0x46#8 ∧ a = 7#8 ∧ s.mem.read s.sp.toNat = 255#8 then some (.outOfBounds, 256)
  else none

/-! ### The invariant -/

/-- A fault record says what R19 allows: `OutOfBounds` with 256 or -1, `InvalidRegister` with 8..255,
`IllegalInstruction` with a byte that is no opcode. -/
def FaultRecord.legal (r : FaultRecord) : Prop :=
  match r.cause with
  | .outOfBounds => r.info = 256 ∨ r.info = -1
  | .invalidRegister => 8 ≤ r.info ∧ r.info ≤ 255
  | .illegalInstruction => ∃ b : Byte, r.info = b.toNat ∧ opcodeMap.lookup b = none

/-- What holds of every state a run can reach: memory in its canonical form, `pc` in 0..256 (R14), at most one
flag set (R17), and a fault record exactly when Faulted (R19), which names the present `pc` (R169) and is
legal. -/
structure Inv (s : State) : Prop where
  mem_wf : s.mem.wf
  pc_le : s.pc.toNat ≤ 256
  flags_one : (s.fl.e && s.fl.g || s.fl.e && s.fl.l || s.fl.g && s.fl.l) = false
  fault_iff : s.fault.isSome = true ↔ s.run = .faulted
  record : ∀ r, s.fault = some r → r.pc = s.pc ∧ r.legal

end Sys2Proof.Machine
end

