-- ==== Sys2Proof/Certificates/Slice0/Obligations.lean ====
section
/-! DEFINITION. The statements for the provers. Each docstring names the rule it formalises, and, where the rule
records a decision of the spec (D<n>) or the model's own choice, says so. -/

open Sys2Proof Sys2Proof.Machine

/-! ### Reset and `Init` -/

/-- R22. That `pc` and `FL` are 0 after reset is the spec's decision (D3, D4; log 3, log 4), and that `OUT` is a
field of the state is the model's choice (log 11). -/
def Obligations.ResetHoldsSpecValues : Prop :=
  (∀ a, State.reset.mem.read a = 0#8) ∧
  (∀ r : RegIdx, State.reset.getReg r = if r = 7 then 0xF4#8 else 0#8) ∧
  State.reset.sp = 0xF4#8 ∧ State.reset.pc = 0#9 ∧ State.reset.flByte = 0#8 ∧
  State.reset.run = .running ∧ State.reset.fault = none ∧ State.reset.out = []

/-- R141: an image of at most 256 bytes is written from address 0, the cells past it stay 0, everything else is
as after reset, and the core is Running. -/
def Obligations.InitLoadsImageFromZero : Prop :=
  ∀ image : List Byte, image.length ≤ 256 → ∃ t, init image = .next t ∧
    (∀ k (h : k < image.length), t.mem.read k = image[k]) ∧
    (∀ a, image.length ≤ a → t.mem.read a = 0#8) ∧
    t.regs = State.reset.regs ∧ t.pc = State.reset.pc ∧ t.fl = State.reset.fl ∧
    t.run = .running ∧ t.fault = none ∧ t.out = []

/-- R142: a longer image is refused and there is no initial state (decision D17 of the spec; that the refusal is
an outcome named imageTooLong is the model's choice, log 12); an empty image gives the reset state, whose first step faults
with `IllegalInstruction(0)` at `pc = 0` (R58). -/
def Obligations.InitRefusesLongImage : Prop :=
  (∀ image : List Byte, 256 < image.length → init image = .refused (.imageTooLong image.length)) ∧
  init [] = .next State.reset ∧
  Faults State.reset .illegalInstruction 0 (step State.reset) ∧ State.reset.pc = 0#9

/-! ### Encoding -/

/-- Words written out from R54 and from the encoded program of 95_test_vectors.md S1 decode to the instructions
they stand for. HLT, LDI and PRN have the source's opcodes; the others the spec's defaults (R56; log 1). That a
table word of 24 bits has the instruction's first byte in bits 7..0 is the model's choice (log 13). -/
def Obligations.SpecWordsDecode : Prop :=
  decode [0b10000010#8, 0b00000000#8, 0b00001000#8, 0b01000111#8] = .ok (.ldi 0#8 8#8, [0b01000111#8]) ∧
  decode [0b01000111#8, 0b00000000#8] = .ok (.prn 0#8, []) ∧
  decode [0b00000001#8] = .ok (.hlt, []) ∧
  decode [0b10100000#8, 0b00000111#8, 0b00000001#8] = .ok (.add 7#8 1#8, []) ∧
  decode [0b10100111#8, 0b00000001#8, 0b00000011#8] = .ok (.cmp 1#8 3#8, []) ∧
  decode [0b01010110#8, 0b00000100#8] = .ok (.jne 4#8, []) ∧
  decode [0b01010000#8, 0b00000001#8] = .ok (.call 1#8, []) ∧
  decode [0b00010001#8, 0b11111111#8] = .ok (.ret, [0b11111111#8]) ∧
  decode [0b00000000#8] = .error (.illegalOpcode 0#8) ∧
  decodeTableWord 24 0x080082 = some (.ldi 0#8 8#8)

/-- R57: the match is on all 8 bits, no byte selects two rows and no row is selected by two bytes, and the
instruction fetched or decoded is one of the row found. For every opcode map with distinct values. -/
def Obligations.OpcodeByteSelectsOneRow : Prop :=
  ∀ m : OpcodeMap, m.Distinct →
    (∀ b op, m.lookup b = some op ↔ b = m.code op) ∧
    (∀ b c op, m.lookup b = some op → m.lookup c = some op → b = c) ∧
    (∀ b rest i tail, decodeWith m (b :: rest) = .ok (i, tail) → m.lookup b = some i.op) ∧
    (∀ s i, fetchWith m s = .ok i → m.lookup (s.mem.read s.pc.toNat) = some i.op)

/-- Decoding the encoding of any instruction gives it back, whatever bytes follow, for every opcode map with
distinct values (R50, R52, R54, R57). -/
def Obligations.DecodeOfEncode : Prop :=
  ∀ m : OpcodeMap, m.Distinct → ∀ (i : Instr) (rest : List Byte),
    decodeWith m (encodeWith m i ++ rest) = .ok (i, rest)

/-- Bytes that decode are the encoding of what they decode to, followed by the rest: no byte string has two
meanings and no reserved one decodes to a neighbour. The length is 1, 2 or 3 and set by the row (R50, R51). -/
def Obligations.DecodedBytesAreTheEncoding : Prop :=
  ∀ (m : OpcodeMap) (bytes rest : List Byte) (i : Instr), decodeWith m bytes = .ok (i, rest) →
    bytes = encodeWith m i ++ rest ∧ (encodeWith m i).length = i.length ∧
    (i.length = if i.op ∈ [Op.hlt, .ret] then 1
      else if i.op ∈ [Op.ldi, .add, .mul, .cmp] then 3 else 2)

/-! ### The step -/

/-- When the bytes from `pc` on decode to an instruction, the step is that instruction's `exec` (R72, R77).
Nothing is added around it: each instruction writes `pc` itself (R77). -/
def Obligations.StepRunsDecodedInstruction : Prop :=
  ∀ (s : State) (i : Instr) (rest : List Byte), s.run = .running →
    decode (bytesAtPc s) = .ok (i, rest) → step s = exec i s

/-- Any instruction placed at a `pc` where it fits is the one that the next step runs, its bytes read from the
cells just written (R35, R72). -/
def Obligations.PlacedInstructionRuns : Prop :=
  ∀ (i : Instr) (s : State), s.pc.toNat + i.length ≤ 256 →
    step (placeAtPc (encode i) s) = exec i (placeAtPc (encode i) s)

/-- R71: a step exists exactly while `RUN = Running`. -/
def Obligations.StepExistsExactlyWhileRunning : Prop :=
  ∀ s : State, (∃ t, step s = .next t) ↔ s.run = .running

/-- R18: `RUN` is Running after reset and after the load. An instruction that completes and is not HLT leaves
Running, HLT gives Halted, a raise gives Faulted, and from Halted and Faulted there is no transition. -/
def Obligations.RunStateTransitions : Prop :=
  State.reset.run = .running ∧
  (∀ (image : List Byte) (t : State), init image = .next t → t.run = .running) ∧
  (∀ s : State, s.run ≠ .running → NoStep s) ∧
  (∀ s t : State, s.run = .running → step s = .next t →
    (t.run = .halted ↔ fetch s = .ok .hlt) ∧
    (t.run = .faulted ↔ ∃ cause info, Faults s cause info (step s)) ∧
    (t.run = .running ↔ fetch s ≠ .ok .hlt ∧ ¬ ∃ cause info, Faults s cause info (step s)))

/-! ### Faults -/

/-- R167, R168: a check that fails takes its exception from the state the step began in, and a step that ends in
Faulted leaves exactly the state before it plus `RUN` and `FAULT`; the record names the `pc` the step began at, the
host reads it, and no step follows. -/
def Obligations.FaultsArePrecise : Prop :=
  (∀ (s : State) (e : Exn), Faults s e.cause e.info (complete s (.error e))) ∧
  (∀ s t : State, step s = .next t → t.run = .faulted →
    ∃ cause info,
      t = { s with run := .faulted, fault := some { cause := cause, pc := s.pc, info := info } } ∧
      t.status = (.faulted, some { cause := cause, pc := s.pc, info := info }) ∧ NoStep t)

/-- R162: every register operand of 8 or more raises `InvalidRegister` with that byte, `a` before `b`, in every
state (that the branch need not be taken: D14), and with nothing else written. -/
def Obligations.InvalidRegisterOperandRaises : Prop :=
  ∀ (s : State) (x : Byte), 8 ≤ x.toNat →
    (∀ b, ∀ i ∈ [Instr.ldi x b, .prn x, .add x b, .mul x b, .cmp x b, .jmp x, .jeq x, .jne x, .push x, .pop x,
        .call x], Faults s .invalidRegister x.toNat (exec i s)) ∧
    (∀ r : RegIdx, ∀ i ∈ [Instr.add (regByte r) x, .mul (regByte r) x, .cmp (regByte r) x],
        Faults s .invalidRegister x.toNat (exec i s))

/-- Well-formedness is exactly what the machine checks: in a running state, an instruction raises
`InvalidRegister` if and only if it is not well formed (R53, R76; that the check does not depend on the branch
being taken is the spec's decision D14). -/
def Obligations.IllFormedExactlyInvalidRegister : Prop :=
  ∀ (i : Instr) (s : State), s.run = .running →
    (i.wellFormed = false ↔ ∃ info, Faults s .invalidRegister info (exec i s))

/-- R163, R58: with the default opcode bytes (ten of them presumed, log 1) exactly 243 byte values are no opcode, 0 among
them, and fetching one raises `IllegalInstruction` with it at every `pc` of memory, the last cell included. -/
def Obligations.IllegalOpcodeRaises : Prop :=
  (((List.range 256).map (BitVec.ofNat 8)).filter fun b => (opcodeMap.lookup b).isNone).length = 243 ∧
  opcodeMap.lookup 0#8 = none ∧
  ∀ s : State, s.run = .running → s.pc.toNat ≤ 255 → opcodeMap.lookup (s.mem.read s.pc.toNat) = none →
    Faults s .illegalInstruction (s.mem.read s.pc.toNat).toNat (step s)

/-- A step faults exactly when a check of R79's list fails, it reports the first that does (R161, R162, R163),
and otherwise it completes with the fault record as it was. The order is the spec's decision D8, the stack and
return-address checks D9 and D10, the check of a register operand whether or not a branch is taken D14, the reading
of operands D15, ten opcode bytes log 1. -/
def Obligations.StepFaultsExactlyAsListed : Prop :=
  ∀ s : State, s.run = .running → s.pc.toNat ≤ 256 →
    match listedFault s with
    | some (cause, info) => Faults s cause info (step s)
    | none => ∃ t, step s = .next t ∧ t.run ≠ .faulted ∧ t.fault = s.fault

/-! ### Memory -/

/-- R31. The lower bound is the spec's decision D9. -/
def Obligations.MemReadChecksBounds : Prop :=
  ∀ (s : State) (addr : Int),
    (addr < 0 ∨ 256 ≤ addr → memRead addr s = .error { cause := .outOfBounds, info := addr }) ∧
    (0 ≤ addr → addr < 256 → memRead addr s = .ok (s.mem.read addr.toNat))

/-- R32: outside 0..255 a write raises `OutOfBounds(addr)`, so that no cell changes; inside, the cell then reads
as the value and no other cell and no other state changes. -/
def Obligations.MemWriteChangesOneCell : Prop :=
  ∀ (s : State) (addr : Int) (v : Byte),
    (addr < 0 ∨ 256 ≤ addr → memWrite addr v s = .error { cause := .outOfBounds, info := addr } ∧
      Faults s .outOfBounds addr (complete s (memWrite addr v s))) ∧
    (0 ≤ addr → addr < 256 → ∃ t, memWrite addr v s = .ok t ∧
      t.mem.read addr.toNat = v ∧ SameMemExcept [addr.toNat] s t ∧ t = { s with mem := t.mem })

/-- A stored byte is what the very next fetch sees, with nothing in between (R44): after a PUSH, a core that
stands at the new `SP` fetches the pushed byte as its opcode. The PUSH itself runs as it was fetched, even when
it overwrites its own bytes. -/
def Obligations.StoreIsSeenByNextFetch : Prop :=
  ∀ (s : State) (r : RegIdx), s.run = .running → s.sp ≠ 0#8 → fetch s = .ok (.push (regByte r)) →
    ∃ t, step s = .next t ∧ exec (.push (regByte r)) s = .next t ∧
      ∀ u : State, u.mem = t.mem → u.pc = zext9 t.sp → u.run = .running →
        (t.getReg r = 0x11#8 → step u = exec .ret u) ∧
        (opcodeMap.lookup (t.getReg r) = none →
          Faults u .illegalInstruction (t.getReg r).toNat (step u))

/-! ### Each instruction: encoding, result and frame, exceptions -/

/-- R90. That `pc` keeps the address of the HLT is the spec's decision D12. HLT at the last cell runs too. -/
def Obligations.HltHalts : Prop :=
  encode .hlt = [0x01#8] ∧
  (∀ s : State, ∃ t, exec .hlt s = .next t ∧ t.run = .halted ∧ t.pc = s.pc ∧
    SameRegsExcept [] s t ∧ SameMemExcept [] s t ∧ t.fl = s.fl ∧ t.out = s.out ∧ t.fault = s.fault) ∧
  (∀ s : State, s.run = .running → s.pc.toNat ≤ 255 → s.mem.read s.pc.toNat = 0x01#8 →
    ∃ t, step s = .next t ∧ t.run = .halted ∧ t.pc = s.pc ∧ NoStep t)

/-- R91: the effect, the flags, the exceptions, and the corner case at `pc = 253`, which completes, leaves `pc = 256`
and faults at the next fetch. -/
def Obligations.LdiLoadsImmediate : Prop :=
  (∀ a b, encode (.ldi a b) = [0x82#8, a, b]) ∧
  (∀ (r : RegIdx) (b : Byte) (s : State), ∃ t, exec (.ldi (regByte r) b) s = .next t ∧
    t.getReg r = b ∧ t.pc = s.pc + 3#9 ∧ SameRegsExcept [r] s t ∧ SameMemExcept [] s t ∧ SameControl s t ∧
    (s.run = .running → s.pc = 253#9 → t.pc = 256#9 ∧ Faults t .outOfBounds 256 (step t))) ∧
  (∀ a b s, 8 ≤ a.toNat → Faults s .invalidRegister a.toNat (exec (.ldi a b) s)) ∧
  OperandPastEndFaults 0x82#8 3

/-- R92: one byte is appended to `OUT`. The opcode is the source's. `State.outLines`, the text a host prints,
gains one numeral (R144; its form is the spec's decision D16, and how a line ends is left out, log 14). -/
def Obligations.PrnEmitsRegister : Prop :=
  (∀ a, encode (.prn a) = [0x47#8, a]) ∧
  (∀ (r : RegIdx) (s : State), ∃ t, exec (.prn (regByte r)) s = .next t ∧
    t.out = s.out ++ [s.getReg r] ∧ t.outLines = s.outLines ++ [decimalNumeral (s.getReg r)] ∧
    t.pc = s.pc + 2#9 ∧ SameRegsExcept [] s t ∧ SameMemExcept [] s t ∧
    t.fl = s.fl ∧ t.run = s.run ∧ t.fault = s.fault) ∧
  (∀ a s, 8 ≤ a.toNat → Faults s .invalidRegister a.toNat (exec (.prn a) s)) ∧
  OperandPastEndFaults 0x47#8 2

/-- R100. The opcode byte is the spec's default (R56; log 1). -/
def Obligations.AddWrapsModulo256 : Prop :=
  (∀ a b, encode (.add a b) = [0xA0#8, a, b]) ∧
  (∀ (ra rb : RegIdx) (s : State), ∃ t, exec (.add (regByte ra) (regByte rb)) s = .next t ∧
    (t.getReg ra).toNat = ((s.getReg ra).toNat + (s.getReg rb).toNat) % 256 ∧ t.pc = s.pc + 3#9 ∧
    SameRegsExcept [ra] s t ∧ SameMemExcept [] s t ∧ SameControl s t) ∧
  (∀ a b s, 8 ≤ a.toNat → Faults s .invalidRegister a.toNat (exec (.add a b) s)) ∧
  (∀ (ra : RegIdx) b s, 8 ≤ b.toNat → Faults s .invalidRegister b.toNat (exec (.add (regByte ra) b) s)) ∧
  OperandPastEndFaults 0xA0#8 3

/-- R101. The opcode byte is the spec's default (R56; log 1). -/
def Obligations.MulWrapsModulo256 : Prop :=
  (∀ a b, encode (.mul a b) = [0xA2#8, a, b]) ∧
  (∀ (ra rb : RegIdx) (s : State), ∃ t, exec (.mul (regByte ra) (regByte rb)) s = .next t ∧
    (t.getReg ra).toNat = ((s.getReg ra).toNat * (s.getReg rb).toNat) % 256 ∧ t.pc = s.pc + 3#9 ∧
    SameRegsExcept [ra] s t ∧ SameMemExcept [] s t ∧ SameControl s t) ∧
  (∀ a b s, 8 ≤ a.toNat → Faults s .invalidRegister a.toNat (exec (.mul a b) s)) ∧
  (∀ (ra : RegIdx) b s, 8 ≤ b.toNat → Faults s .invalidRegister b.toNat (exec (.mul (regByte ra) b) s)) ∧
  OperandPastEndFaults 0xA2#8 3

/-- R110. Which operand is the greater and that bytes are unsigned is the spec's decision D6, the byte of `FL`
its D4 (log 4), the opcode byte its default (log 1). -/
def Obligations.CmpSetsExactlyOneFlag : Prop :=
  (∀ a b, encode (.cmp a b) = [0xA7#8, a, b]) ∧
  (∀ (ra rb : RegIdx) (s : State), ∃ t, exec (.cmp (regByte ra) (regByte rb)) s = .next t ∧
    ((s.getReg ra).toNat = (s.getReg rb).toNat → t.fl = { e := true, g := false, l := false } ∧ t.flByte = 0x01#8) ∧
    ((s.getReg ra).toNat > (s.getReg rb).toNat → t.fl = { e := false, g := true, l := false } ∧ t.flByte = 0x02#8) ∧
    ((s.getReg ra).toNat < (s.getReg rb).toNat → t.fl = { e := false, g := false, l := true } ∧ t.flByte = 0x04#8) ∧
    t.pc = s.pc + 3#9 ∧ SameRegsExcept [] s t ∧ SameMemExcept [] s t ∧
    t.out = s.out ∧ t.run = s.run ∧ t.fault = s.fault) ∧
  (∀ a b s, 8 ≤ a.toNat → Faults s .invalidRegister a.toNat (exec (.cmp a b) s)) ∧
  (∀ (ra : RegIdx) b s, 8 ≤ b.toNat → Faults s .invalidRegister b.toNat (exec (.cmp (regByte ra) b) s)) ∧
  OperandPastEndFaults 0xA7#8 3

/-- R111. The opcode byte is the spec's default (R56; log 1). -/
def Obligations.JmpLoadsPc : Prop :=
  (∀ a, encode (.jmp a) = [0x54#8, a]) ∧
  (∀ (r : RegIdx) (s : State), ∃ t, exec (.jmp (regByte r)) s = .next t ∧
    t.pc.toNat = (s.getReg r).toNat ∧ SameRegsExcept [] s t ∧ SameMemExcept [] s t ∧ SameControl s t) ∧
  (∀ a s, 8 ≤ a.toNat → Faults s .invalidRegister a.toNat (exec (.jmp a) s)) ∧
  OperandPastEndFaults 0x54#8 2

/-- R112. That the operand is checked when the branch is not taken is the spec's decision D14; the opcode byte
is its default (log 1). -/
def Obligations.JeqJumpsWhenEqual : Prop :=
  (∀ a, encode (.jeq a) = [0x55#8, a]) ∧
  (∀ (r : RegIdx) (s : State), ∃ t, exec (.jeq (regByte r)) s = .next t ∧
    (s.fl.e = true → t.pc.toNat = (s.getReg r).toNat) ∧ (s.fl.e = false → t.pc = s.pc + 2#9) ∧
    SameRegsExcept [] s t ∧ SameMemExcept [] s t ∧ SameControl s t ∧
    (s.run = .running → s.fl.e = false → s.pc = 254#9 → t.pc = 256#9 ∧ Faults t .outOfBounds 256 (step t))) ∧
  (∀ a s, 8 ≤ a.toNat → Faults s .invalidRegister a.toNat (exec (.jeq a) s)) ∧
  OperandPastEndFaults 0x55#8 2

/-- R113; D14 and log 1 as for JEQ. On the same `FL`, one of JEQ and JNE jumps and the other falls through. -/
def Obligations.JneJumpsWhenNotEqual : Prop :=
  (∀ a, encode (.jne a) = [0x56#8, a]) ∧
  (∀ (r : RegIdx) (s : State), ∃ t, exec (.jne (regByte r)) s = .next t ∧
    (s.fl.e = false → t.pc.toNat = (s.getReg r).toNat) ∧ (s.fl.e = true → t.pc = s.pc + 2#9) ∧
    SameRegsExcept [] s t ∧ SameMemExcept [] s t ∧ SameControl s t) ∧
  (∀ a s, 8 ≤ a.toNat → Faults s .invalidRegister a.toNat (exec (.jne a) s)) ∧
  OperandPastEndFaults 0x56#8 2

/-- R121. The bound at `SP = 0` is the spec's decision D9, the value that PUSH R7 stores its D11, the opcode byte
its default (log 1). -/
def Obligations.PushStoresBelowStackPointer : Prop :=
  (∀ a, encode (.push a) = [0x45#8, a]) ∧
  (∀ (r : RegIdx) (s : State), s.sp ≠ 0#8 → ∃ t, exec (.push (regByte r)) s = .next t ∧
    t.sp.toNat = s.sp.toNat - 1 ∧ t.mem.read (s.sp.toNat - 1) = t.getReg r ∧ t.pc = s.pc + 2#9 ∧
    SameRegsExcept [7] s t ∧ SameMemExcept [s.sp.toNat - 1] s t ∧ SameControl s t) ∧
  (∀ (r : RegIdx) (s : State), s.sp = 0#8 → Faults s .outOfBounds (-1) (exec (.push (regByte r)) s)) ∧
  (∀ a s, 8 ≤ a.toNat → Faults s .invalidRegister a.toNat (exec (.push a) s)) ∧
  OperandPastEndFaults 0x45#8 2

/-- R122. The bound at 256 is the spec's decision D9, where POP R7 leaves `SP` its D11, the opcode byte its
default (log 1). -/
def Obligations.PopLoadsFromStackPointer : Prop :=
  (∀ a, encode (.pop a) = [0x46#8, a]) ∧
  (∀ (r : RegIdx) (s : State), r ≠ 7 → s.sp ≠ 255#8 → ∃ t, exec (.pop (regByte r)) s = .next t ∧
    t.getReg r = s.mem.read s.sp.toNat ∧ t.sp.toNat = s.sp.toNat + 1 ∧ t.pc = s.pc + 2#9 ∧
    SameRegsExcept [r, 7] s t ∧ SameMemExcept [] s t ∧ SameControl s t) ∧
  (∀ s : State, s.mem.read s.sp.toNat ≠ 255#8 → ∃ t, exec (.pop (regByte 7)) s = .next t ∧
    t.sp.toNat = (s.mem.read s.sp.toNat).toNat + 1 ∧ t.pc = s.pc + 2#9 ∧
    SameRegsExcept [7] s t ∧ SameMemExcept [] s t ∧ SameControl s t) ∧
  (∀ (r : RegIdx) (s : State), r ≠ 7 → s.sp = 255#8 → Faults s .outOfBounds 256 (exec (.pop (regByte r)) s)) ∧
  (∀ s : State, s.mem.read s.sp.toNat = 255#8 → Faults s .outOfBounds 256 (exec (.pop (regByte 7)) s)) ∧
  (∀ a s, 8 ≤ a.toNat → Faults s .invalidRegister a.toNat (exec (.pop a) s)) ∧
  OperandPastEndFaults 0x46#8 2

/-- R123. The bounds are the spec's decisions D9 and D10, the target of CALL R7 its D11, the opcode byte its
default (log 1). -/
def Obligations.CallPushesReturnAddress : Prop :=
  (∀ a, encode (.call a) = [0x50#8, a]) ∧
  (∀ (r : RegIdx) (s : State), s.pc.toNat ≤ 253 → s.sp ≠ 0#8 → ∃ t, exec (.call (regByte r)) s = .next t ∧
    t.sp.toNat = s.sp.toNat - 1 ∧ (t.mem.read (s.sp.toNat - 1)).toNat = s.pc.toNat + 2 ∧
    t.pc.toNat = (t.getReg r).toNat ∧
    SameRegsExcept [7] s t ∧ SameMemExcept [s.sp.toNat - 1] s t ∧ SameControl s t) ∧
  (∀ (r : RegIdx) (s : State), 254 ≤ s.pc.toNat → Faults s .outOfBounds 256 (exec (.call (regByte r)) s)) ∧
  (∀ (r : RegIdx) (s : State), s.pc.toNat ≤ 253 → s.sp = 0#8 →
    Faults s .outOfBounds (-1) (exec (.call (regByte r)) s)) ∧
  (∀ a s, 8 ≤ a.toNat → Faults s .invalidRegister a.toNat (exec (.call a) s)) ∧
  OperandPastEndFaults 0x50#8 2

/-- R124. The bound at `SP = 255` is the spec's decision D9, the opcode byte its default (log 1). RET at the
last cell reads no operand and runs. -/
def Obligations.RetPopsPc : Prop :=
  encode .ret = [0x11#8] ∧
  (∀ s : State, s.sp ≠ 255#8 → ∃ t, exec .ret s = .next t ∧
    t.pc.toNat = (s.mem.read s.sp.toNat).toNat ∧ t.sp.toNat = s.sp.toNat + 1 ∧
    SameRegsExcept [7] s t ∧ SameMemExcept [] s t ∧ SameControl s t) ∧
  (∀ s : State, s.sp = 255#8 → Faults s .outOfBounds 256 (exec .ret s)) ∧
  (∀ s : State, s.run = .running → s.pc.toNat ≤ 255 → s.mem.read s.pc.toNat = 0x11#8 → step s = exec .ret s)

/-! ### Laws over more than one instruction -/

/-- R102. That the result does not depend on reading bytes as signed or unsigned is the spec's own derivation. -/
def Obligations.ArithmeticLaws : Prop :=
  ∀ (ra rb : RegIdx) (s : State), ∃ t u v w,
    exec (.add (regByte ra) (regByte rb)) s = .next t ∧ exec (.add (regByte rb) (regByte ra)) s = .next u ∧
    exec (.mul (regByte ra) (regByte rb)) s = .next v ∧ exec (.mul (regByte rb) (regByte ra)) s = .next w ∧
    t.getReg ra = u.getReg rb ∧ v.getReg ra = w.getReg rb ∧
    t.getReg ra = BitVec.ofInt 8 ((s.getReg ra).toInt + (s.getReg rb).toInt) ∧
    v.getReg ra = BitVec.ofInt 8 ((s.getReg ra).toInt * (s.getReg rb).toInt)

/-- R115: JEQ after CMP jumps if and only if the two values compared were equal, JNE if and only if they were
not, and no instruction but CMP disturbs that in between. -/
def Obligations.CompareThenBranch : Prop :=
  (∀ (ra rb : RegIdx) (s : State), ∃ t, exec (.cmp (regByte ra) (regByte rb)) s = .next t ∧
    ∀ (r : RegIdx) (u : State), u.fl = t.fl → ∃ v w,
      exec (.jeq (regByte r)) u = .next v ∧ exec (.jne (regByte r)) u = .next w ∧
      v.pc = (if s.getReg ra = s.getReg rb then zext9 (u.getReg r) else u.pc + 2#9) ∧
      w.pc = (if s.getReg ra = s.getReg rb then u.pc + 2#9 else zext9 (u.getReg r))) ∧
  (∀ (i : Instr) (s t : State), i.op ≠ .cmp → exec i s = .next t → t.fl = s.fl)

/-- R126. (1) PUSH then POP of the same register restores the register and `SP` and changes only the cell below
`SP`. (2) CALL, then RET from any state with the `SP` and the stacked byte that CALL left, resumes after the CALL. -/
def Obligations.PushPopAndCallRet : Prop :=
  (∀ (r : RegIdx) (s : State), s.sp ≠ 0#8 → ∃ t u,
    exec (.push (regByte r)) s = .next t ∧ exec (.pop (regByte r)) t = .next u ∧
    u.getReg r = s.getReg r ∧ u.sp = s.sp ∧ SameRegsExcept [] s u ∧ SameMemExcept [s.sp.toNat - 1] s u) ∧
  (∀ (r : RegIdx) (s : State), s.sp ≠ 0#8 → s.pc.toNat ≤ 253 → ∃ t,
    exec (.call (regByte r)) s = .next t ∧
    ∀ u : State, u.sp = t.sp → u.mem.read u.sp.toNat = t.mem.read t.sp.toNat → ∃ v,
      exec .ret u = .next v ∧ v.pc = s.pc + 2#9 ∧ v.sp = s.sp)

/-- From `SP = n`, n pushes complete and the next raises `OutOfBounds(-1)`; from reset, 244 complete (R125, the
spec's decision D9). The pushes are `exec` in a row, without a fetch between them, so `pc` may pass 256: the
clause on `pc` is then the model's choice (log 22). -/
def Obligations.PushesCompleteUntilStackPointerZero : Prop :=
  (∀ (r : RegIdx) (s : State) (k : Nat), s.run = .running → k ≤ s.sp.toNat → ∃ t,
    repeatExec (.push (regByte r)) k s = .next t ∧ t.run = .running ∧ t.sp.toNat = s.sp.toNat - k ∧
    t.pc = s.pc + BitVec.ofNat 9 (2 * k)) ∧
  (∀ (r : RegIdx) (s : State), s.run = .running → ∃ t u,
    repeatExec (.push (regByte r)) s.sp.toNat s = .next t ∧
    repeatExec (.push (regByte r)) (s.sp.toNat + 1) s = .next u ∧
    u = { t with run := .faulted, fault := some { cause := .outOfBounds, pc := t.pc, info := -1 } }) ∧
  State.reset.sp.toNat = 244

/-- A program reads a cell with LDI R7 and POP and writes one with LDI R7 and PUSH (R129, the spec's derivation). -/
def Obligations.AnyCellThroughStackPointer : Prop :=
  (∀ (r : RegIdx) (a : Byte) (s : State), r ≠ 7 → a ≠ 255#8 → ∃ t u,
    exec (.ldi (regByte 7) a) s = .next t ∧ exec (.pop (regByte r)) t = .next u ∧
    u.getReg r = s.mem.read a.toNat ∧ SameMemExcept [] s u) ∧
  (∀ (r : RegIdx) (a : Byte) (s : State), r ≠ 7 → a ≠ 255#8 → ∃ t u,
    exec (.ldi (regByte 7) (a + 1#8)) s = .next t ∧ exec (.push (regByte r)) t = .next u ∧
    u.mem.read a.toNat = s.getReg r ∧ SameMemExcept [a.toNat] s u)

/-- The stack has no tags: PUSH then RET jumps to the pushed byte and restores `SP`, and POP takes a return
address off the stack (R128; D11 for the forms that name R7). -/
def Obligations.ReturnAddressesAreData : Prop :=
  (∀ (r : RegIdx) (s : State), s.sp ≠ 0#8 → ∃ t u,
    exec (.push (regByte r)) s = .next t ∧ exec .ret t = .next u ∧
    u.pc = zext9 (t.getReg r) ∧ u.sp = s.sp) ∧
  (∀ (r q : RegIdx) (s : State), s.sp ≠ 0#8 → s.pc.toNat ≤ 253 → q ≠ 7 → ∃ t u,
    exec (.call (regByte r)) s = .next t ∧ exec (.pop (regByte q)) t = .next u ∧
    (u.getReg q).toNat = s.pc.toNat + 2 ∧ u.sp = s.sp)

/-! ### Whole-machine rules -/

/-- R20: `OUT` is empty at reset, each PRN appends one byte and nothing else does, nothing removes from it, and the core never reads it: a
step that starts with another `OUT` goes on exactly the same way. -/
def Obligations.OutputOnlyGrowsByPrn : Prop :=
  State.reset.out = [] ∧
  (∀ s t : State, step s = .next t →
    t.out = s.out ∨ ∃ r : RegIdx, fetch s = .ok (.prn (regByte r)) ∧ t.out = s.out ++ [s.getReg r]) ∧
  (∀ (s : State) (r : RegIdx), s.run = .running → fetch s = .ok (.prn (regByte r)) →
    ∃ t, step s = .next t ∧ t.out = s.out ++ [s.getReg r]) ∧
  (∀ (s t : State) (o : List Byte), step s = .next t →
    ∃ added, t.out = s.out ++ added ∧ step { s with out := o } = .next { t with out := o ++ added })

/-- Only CMP changes `FL`, and a CMP that completes replaces all of it (R17; that ADD and MUL set no flag is the
spec's decision D19). -/
def Obligations.OnlyCmpWritesFlags : Prop :=
  ∀ s t : State, step s = .next t → t.fl = s.fl ∨
    ∃ ra rb : RegIdx, fetch s = .ok (.cmp (regByte ra) (regByte rb)) ∧
      t.fl = { e := decide ((s.getReg ra).toNat = (s.getReg rb).toNat),
               g := decide ((s.getReg ra).toNat > (s.getReg rb).toNat),
               l := decide ((s.getReg ra).toNat < (s.getReg rb).toNat) }

/-- `FL.G` and `FL.L` are read by no instruction (R17, R116): two states that differ in them alone step to
states that differ in them alone. -/
def Obligations.GreaterAndLessAreNeverRead : Prop :=
  ∀ (s t : State) (f : Flags), f.e = s.fl.e → step s = .next t →
    ∃ t', step { s with fl := f } = .next t' ∧ t'.fl.e = t.fl.e ∧ { t' with fl := t.fl } = t ∧
      (t'.fl = t.fl ∨ t'.fl = f ∧ t.fl = s.fl)

/-- The only stores are those of PUSH and CALL, at `SP - 1` (R33, R129). -/
def Obligations.OnlyPushAndCallStore : Prop :=
  ∀ (s t : State) (a : Nat), step s = .next t → t.mem.read a ≠ s.mem.read a →
    s.sp ≠ 0#8 ∧ a = s.sp.toNat - 1 ∧
    ∃ r : RegIdx, fetch s = .ok (.push (regByte r)) ∨ fetch s = .ok (.call (regByte r))

/-- Which instructions change a register: LDI, ADD, MUL and POP the one they name first, and PUSH, POP, CALL
and RET the stack pointer (R12, R13). -/
def Obligations.RegisterWritersAreListed : Prop :=
  ∀ (s t : State) (r : RegIdx), step s = .next t → t.getReg r ≠ s.getReg r →
    (∃ b, fetch s ∈ [Except.ok (.ldi (regByte r) b), .ok (.add (regByte r) b), .ok (.mul (regByte r) b),
        .ok (.pop (regByte r))]) ∨
    (r = 7 ∧ ∃ a, fetch s ∈ [Except.ok (.push a), .ok (.pop a), .ok (.call a), .ok .ret])

/-- `pc` leaves memory only by a fall-through past the last cell: a two-byte instruction at 254 or a three-byte
one at 253, and then to 256 (R14 and R73, the spec's derivation from its decision D2); the step there raises
`OutOfBounds(256)`. -/
def Obligations.PcLeavesMemoryOnlyByFallThrough : Prop :=
  (∀ s t : State, s.pc.toNat ≤ 255 → step s = .next t → 255 < t.pc.toNat →
    t.pc = 256#9 ∧
    ((s.pc = 254#9 ∧ ∃ a, fetch s ∈ [Except.ok (.prn a), .ok (.jeq a), .ok (.jne a), .ok (.push a), .ok (.pop a)]) ∨
     (s.pc = 253#9 ∧ ∃ a b, fetch s ∈ [Except.ok (.ldi a b), .ok (.add a b), .ok (.mul a b), .ok (.cmp a b)]))) ∧
  (∀ s : State, s.run = .running → s.pc = 256#9 →
    step s = .next { s with run := .faulted, fault := some { cause := .outOfBounds, pc := 256#9, info := 256 } })

/-- Every step keeps the invariant `Inv`: memory canonical, `pc` in 0..256 (R14), at most one flag (R17), a fault
record exactly when Faulted (R19), naming the present `pc` (R169), with an `info` that R161 to R163 allow. The canonical
form of memory is the model's (log 15), R14's bound and R169 are the spec's derivations. -/
def Obligations.EveryStepKeepsInvariant : Prop :=
  ∀ s t : State, Inv s → step s = .next t → Inv t

/-- The invariant holds after reset, and after `Init` of every image that is accepted. -/
def Obligations.InvariantHoldsAfterInit : Prop :=
  Inv State.reset ∧ ∀ (image : List Byte) (t : State), init image = .next t → Inv t

/-! ### What the host sees -/

/-- `FL` as a byte. Under every layout of three distinct positions (R5) each flag stands at its position and every
other bit is 0. The default layout is `00000LGE`, bits 7..3 zero (R16; presumed from general knowledge, D4, log 4). -/
def Obligations.FlagsByteIsLGE : Prop :=
  (∀ p : FlagLayout, p.Distinct → ∀ f : Flags,
    (f.toByteWith p).getLsbD p.e = f.e ∧ (f.toByteWith p).getLsbD p.g = f.g ∧ (f.toByteWith p).getLsbD p.l = f.l ∧
    ∀ k : Nat, k ≠ p.e → k ≠ p.g → k ≠ p.l → (f.toByteWith p).getLsbD k = false) ∧
  flagLayout.Distinct ∧
  (∀ f : Flags, f.toByte.getLsbD 0 = f.e ∧ f.toByte.getLsbD 1 = f.g ∧ f.toByte.getLsbD 2 = f.l ∧
    ∀ k, 3 ≤ k → f.toByte.getLsbD k = false)

/-- The numeral printed for a byte: decimal digits that denote it, none leading 0 but for 0 itself (R144; the
form is the spec's decision D16). -/
def Obligations.NumeralIsDecimal : Prop :=
  ∀ v : Byte, decimalNumeral v ≠ [] ∧ (∀ c ∈ decimalNumeral v, c.isDigit = true) ∧
    (decimalNumeral v).foldl (fun n c => 10 * n + (c.toNat - 48)) 0 = v.toNat ∧
    ((decimalNumeral v).head? = some '0' → v = 0#8 ∧ decimalNumeral v = ['0'])
end

