-- ==== Sys2Proof/Laws/Decode.lean ====
section
/-! SUPPORT. The laws of the decoder and the encoder, for every opcode map. -/

namespace Sys2Proof

theorem mem_allOps (op : Op) : op ∈ allOps := by cases op <;> decide

/-- A row is found only by its own opcode byte. -/
theorem OpcodeMap.code_of_lookup {m : OpcodeMap} {b : Byte} {op : Op} (h : m.lookup b = some op) :
    m.code op = b := by
  simpa using List.find?_some h

/-- With distinct values, every opcode byte finds its own row. -/
theorem OpcodeMap.lookup_code {m : OpcodeMap} (hm : m.Distinct) (op : Op) : m.lookup (m.code op) = some op := by
  cases h : m.lookup (m.code op) with
  | none =>
    have := List.find?_eq_none.mp h op (mem_allOps op)
    simp at this
  | some q => rw [hm q (mem_allOps q) op (mem_allOps op) (OpcodeMap.code_of_lookup h)]

/-- The default opcode bytes are pairwise distinct (R5). -/
theorem opcodeMap_distinct : opcodeMap.Distinct := by decide

section Fetch

variable {ε : Type} {read : Nat → Except ε Byte}

theorem operandsF1_ok {build : Byte → Instr} {a : Byte} (ha : read 1 = .ok a) :
    operandsF1 read build = .ok (build a) := by simp [operandsF1, ha]

theorem operandsF2_ok {build : Byte → Byte → Instr} {a b : Byte} (ha : read 1 = .ok a) (hb : read 2 = .ok b) :
    operandsF2 read build = .ok (build a b) := by simp [operandsF2, ha, hb]

theorem operandsF1_inv {build : Byte → Instr} {i : Instr} (h : operandsF1 read build = .ok i) :
    ∃ a, read 1 = .ok a ∧ i = build a := by
  unfold operandsF1 at h
  split at h
  · cases h
  · next a ha => exact ⟨a, ha, by simpa using h.symm⟩

theorem operandsF2_inv {build : Byte → Byte → Instr} {i : Instr} (h : operandsF2 read build = .ok i) :
    ∃ a b, read 1 = .ok a ∧ read 2 = .ok b ∧ i = build a b := by
  unfold operandsF2 at h
  split at h
  · cases h
  · next a ha =>
    split at h
    · cases h
    · next b hb => exact ⟨a, b, ha, hb, by simpa using h.symm⟩

/-- What operand fetch gives: an instruction of the row, whose operands are the bytes 1, 2, … that were read. -/
theorem operandFetch_inv {op : Op} {i : Instr} (h : operandFetch read op = .ok i) :
    i.op = op ∧ ∀ k (hk : k < i.operands.length), read (k + 1) = .ok i.operands[k] := by
  cases op
  case hlt | ret => cases h; simp [Instr.op, Instr.operands]
  case prn | jmp | jeq | jne | push | pop | call =>
    obtain ⟨a, ha, rfl⟩ := operandsF1_inv h
    refine ⟨rfl, fun k hk => ?_⟩
    simp only [Instr.operands, List.length_cons, List.length_nil] at hk
    obtain rfl : k = 0 := by omega
    exact ha
  case ldi | add | mul | cmp =>
    obtain ⟨a, b, ha, hb, rfl⟩ := operandsF2_inv h
    refine ⟨rfl, fun k hk => ?_⟩
    simp only [Instr.operands, List.length_cons, List.length_nil] at hk
    obtain rfl | rfl : k = 0 ∨ k = 1 := by omega
    · exact ha
    · exact hb

/-- Operand fetch gives an instruction back when the bytes read are its operands. -/
theorem operandFetch_of_operands (i : Instr)
    (h : ∀ k (hk : k < i.operands.length), read (k + 1) = .ok i.operands[k]) :
    operandFetch read i.op = .ok i := by
  cases i
  case hlt | ret => rfl
  case prn | jmp | jeq | jne | push | pop | call => exact operandsF1_ok (h 0 (by simp [Instr.operands]))
  case ldi | add | mul | cmp =>
    exact operandsF2_ok (h 0 (by simp [Instr.operands])) (h 1 (by simp [Instr.operands]))

/-- What the decoder gives: an instruction whose encoding is the bytes that were read. -/
theorem decodeFrom_inv {m : OpcodeMap} {illegal : Byte → ε} {i : Instr}
    (h : decodeFrom m read illegal = .ok i) :
    ∃ opcode, read 0 = .ok opcode ∧ m.lookup opcode = some i.op ∧
      ∀ k (hk : k < (encodeWith m i).length), read k = .ok (encodeWith m i)[k] := by
  unfold decodeFrom at h
  split at h
  · cases h
  · next opcode h0 =>
    split at h
    · cases h
    · next op hop =>
      obtain ⟨rfl, hk⟩ := operandFetch_inv h
      refine ⟨opcode, h0, hop, fun k hlt => ?_⟩
      cases k with
      | zero => simpa [encodeWith, OpcodeMap.code_of_lookup hop] using h0
      | succ k => simpa [encodeWith] using hk k (by simpa [encodeWith] using hlt)

/-- With distinct opcode values, reading the encoding of an instruction decodes to it. -/
theorem decodeFrom_of_encode {m : OpcodeMap} (hm : m.Distinct) (illegal : Byte → ε) (i : Instr)
    (h : ∀ k (hk : k < (encodeWith m i).length), read k = .ok (encodeWith m i)[k]) :
    decodeFrom m read illegal = .ok i := by
  have h0 : read 0 = .ok (m.code i.op) := by simpa [encodeWith] using h 0 (by simp [encodeWith])
  simp only [decodeFrom, h0, OpcodeMap.lookup_code hm]
  exact operandFetch_of_operands i fun k hk => by simpa [encodeWith] using h (k + 1) (by simpa [encodeWith] using hk)

end Fetch

@[simp] theorem length_encodeWith (m : OpcodeMap) (i : Instr) : (encodeWith m i).length = i.length := by
  simp [encodeWith, Instr.length]

/-- A decoded instruction came from a decoder run over the list; the rest is what follows its length. -/
theorem decodeWith_inv {m : OpcodeMap} {bytes rest : List Byte} {i : Instr}
    (h : decodeWith m bytes = .ok (i, rest)) :
    decodeFrom m (byteAt bytes) .illegalOpcode = .ok i ∧ rest = bytes.drop i.length := by
  unfold decodeWith at h
  split at h
  · cases h
  · next j hj => cases h; exact ⟨hj, rfl⟩

theorem byteAt_ok {bytes : List Byte} {k : Nat} {b : Byte} : byteAt bytes k = .ok b ↔ bytes[k]? = some b := by
  unfold byteAt
  split <;> simp_all

end Sys2Proof
end

