-- ==== Sys2Proof/Laws/Memory.lean ====
section
/-! SUPPORT. The laws of memory: read after write, and the canonical form. -/

namespace Sys2Proof.Machine

@[simp] theorem Memory.read_nil (a : Nat) : Memory.read [] a = unlistedByte := rfl

theorem Memory.read_cons (b : Nat) (v : Byte) (m : Memory) (a : Nat) :
    Memory.read ((b, v) :: m) a = if b = a then v else Memory.read m a := rfl

theorem Memory.read_of_not_mem (m : Memory) (a : Nat) (h : ∀ c ∈ m, c.1 ≠ a) : m.read a = unlistedByte := by
  induction m with
  | nil => rfl
  | cons c m ih =>
    rw [show c = (c.1, c.2) from rfl, Memory.read_cons, if_neg (h c (by simp))]
    exact ih fun d hd => h d (by simp [hd])

theorem Memory.read_filter_self (m : Memory) (a : Nat) :
    Memory.read (m.filter fun c => c.1 != a) a = unlistedByte :=
  Memory.read_of_not_mem _ _ fun c hc => by simpa using (List.mem_filter.mp hc).2

theorem Memory.read_filter_of_ne (m : Memory) {a b : Nat} (h : b ≠ a) :
    Memory.read (m.filter fun c => c.1 != a) b = m.read b := by
  induction m with
  | nil => rfl
  | cons c m ih =>
    obtain ⟨k, v⟩ := c
    by_cases hk : k = a
    · have hkb : k ≠ b := fun e => h (e ▸ hk)
      simpa [List.filter_cons, hk, Memory.read_cons, hkb, Ne.symm h] using ih
    · simp [hk, Memory.read_cons, ih]

theorem Memory.read_insert_self (m : Memory) (a : Nat) (v : Byte) (h : ∀ c ∈ m, c.1 ≠ a) :
    Memory.read (Memory.insert a v m) a = v := by
  induction m with
  | nil => simp [Memory.insert, Memory.read_cons]
  | cons c m ih =>
    obtain ⟨k, w⟩ := c
    have hk : k ≠ a := h (k, w) (by simp)
    unfold Memory.insert
    split
    · simp [Memory.read_cons]
    · simpa [Memory.read_cons, hk] using ih fun d hd => h d (by simp [hd])

theorem Memory.read_insert_of_ne (m : Memory) {a b : Nat} (v : Byte) (h : b ≠ a) :
    Memory.read (Memory.insert a v m) b = m.read b := by
  induction m with
  | nil => simp [Memory.insert, Memory.read_cons, Ne.symm h]
  | cons c m ih =>
    obtain ⟨k, w⟩ := c
    unfold Memory.insert
    split
    · simp [Memory.read_cons, Ne.symm h]
    · simp [Memory.read_cons, ih]

/-- A cell reads as the value last written to it. -/
@[simp] theorem Memory.read_write_self (m : Memory) (a : Nat) (v : Byte) : (m.write a v).read a = v := by
  unfold Memory.write
  dsimp only
  split
  · next h => rw [Memory.read_filter_self, h]
  · exact Memory.read_insert_self _ _ _ fun c hc => by simpa using (List.mem_filter.mp hc).2

/-- A write leaves every other cell as it was. -/
theorem Memory.read_write_of_ne (m : Memory) {a b : Nat} (v : Byte) (h : b ≠ a) :
    (m.write a v).read b = m.read b := by
  unfold Memory.write
  dsimp only
  split
  · exact Memory.read_filter_of_ne m h
  · rw [Memory.read_insert_of_ne _ v h, Memory.read_filter_of_ne m h]

theorem Memory.mem_insert {a : Nat} {v : Byte} {m : Memory} {c : Host.Cell} :
    c ∈ Memory.insert a v m ↔ c = (a, v) ∨ c ∈ m := by
  induction m with
  | nil => simp [Memory.insert]
  | cons d m ih =>
    unfold Memory.insert
    split
    · simp
    · simp [ih, or_left_comm]

theorem Memory.insert_rising {m : Memory} (a : Nat) (v : Byte)
    (h : m.Pairwise fun c d => c.1 < d.1) (hne : ∀ c ∈ m, c.1 ≠ a) :
    (Memory.insert a v m).Pairwise fun c d => c.1 < d.1 := by
  induction m with
  | nil => simp [Memory.insert]
  | cons d m ih =>
    obtain ⟨hd, hm⟩ := List.pairwise_cons.mp h
    unfold Memory.insert
    split
    · next hlt =>
      refine List.pairwise_cons.mpr ⟨fun c hc => ?_, h⟩
      rcases List.mem_cons.mp hc with rfl | hc
      · exact hlt
      · exact Nat.lt_trans hlt (hd c hc)
    · next hge =>
      have hda : d.1 ≠ a := hne d (by simp)
      refine List.pairwise_cons.mpr ⟨fun c hc => ?_, ih hm fun c hc => hne c (by simp [hc])⟩
      rcases Memory.mem_insert.mp hc with rfl | hc
      · show d.1 < a
        have : ¬ a < d.1 := hge
        omega
      · exact hd c hc

/-- A write to a cell of memory keeps the canonical form. -/
theorem Memory.write_wf {m : Memory} {a : Nat} (v : Byte) (h : m.wf) (ha : a < 256) : (m.write a v).wf := by
  obtain ⟨hp, hc⟩ := h
  have hp' := hp.filter (fun c => c.1 != a)
  have hc' : ∀ c ∈ m.filter (fun c => c.1 != a), c.1 < Config.memSize ∧ c.2 ≠ unlistedByte :=
    fun c hm => hc c (List.mem_filter.mp hm).1
  unfold Memory.write
  dsimp only
  split
  · exact ⟨hp', hc'⟩
  · next hv =>
    refine ⟨Memory.insert_rising a v hp' fun c hm => by simpa using (List.mem_filter.mp hm).2, fun c hm => ?_⟩
    rcases Memory.mem_insert.mp hm with rfl | hm
    · exact ⟨ha, hv⟩
    · exact hc' c hm

theorem Memory.place_wf {m : Memory} (a : Nat) (bytes : List Byte) (h : m.wf) : (Memory.place a bytes m).wf := by
  induction bytes generalizing a m with
  | nil => exact h
  | cons b rest ih =>
    refine ih (a + 1) ?_
    split
    · next ha => exact Memory.write_wf b h (by simpa using ha)
    · exact h

/-- Placing bytes leaves every cell below them as it was. -/
theorem Memory.read_place_below (m : Memory) {a x : Nat} (bytes : List Byte) (h : x < a) :
    (Memory.place a bytes m).read x = m.read x := by
  induction bytes generalizing a m with
  | nil => rfl
  | cons b rest ih =>
    rw [Memory.place, ih _ (Nat.lt_succ_of_lt h)]
    split
    · exact Memory.read_write_of_ne m b (Nat.ne_of_lt h)
    · rfl

/-- Placing bytes leaves every cell past them as it was. -/
theorem Memory.read_place_above (m : Memory) {a x : Nat} (bytes : List Byte) (h : a + bytes.length ≤ x) :
    (Memory.place a bytes m).read x = m.read x := by
  induction bytes generalizing a m with
  | nil => rfl
  | cons b rest ih =>
    simp only [List.length_cons] at h
    rw [Memory.place, ih _ (by omega)]
    split
    · exact Memory.read_write_of_ne m b (by omega)
    · rfl

/-- Byte number k of the placed bytes stands at `a + k`. -/
theorem Memory.read_place (m : Memory) (a k : Nat) (bytes : List Byte) (hk : k < bytes.length)
    (h : a + k < 256) : (Memory.place a bytes m).read (a + k) = bytes[k] := by
  induction bytes generalizing a m k with
  | nil => simp at hk
  | cons b rest ih =>
    cases k with
    | zero =>
      have ha : a < 256 := by omega
      simp [Memory.place, Memory.read_place_below, ha]
    | succ k =>
      have := ih (if a < Config.memSize then m.write a b else m) (a + 1) k (by simpa using hk) (by omega)
      simpa [Memory.place, Nat.add_assoc, Nat.add_comm 1 k] using this

end Sys2Proof.Machine
end

