-- ==== Sys2Proof/Laws/State.lean ====
section
/-! SUPPORT. One lemma per field per update of the state, and the register file's laws. -/

namespace Sys2Proof.Machine

section Updates

variable (s : State)

/-! ### setReg -/

@[simp] theorem State.setReg_mem (i : RegIdx) (v : Byte) : (s.setReg i v).mem = s.mem := rfl
@[simp] theorem State.setReg_pc (i : RegIdx) (v : Byte) : (s.setReg i v).pc = s.pc := rfl
@[simp] theorem State.setReg_fl (i : RegIdx) (v : Byte) : (s.setReg i v).fl = s.fl := rfl
@[simp] theorem State.setReg_run (i : RegIdx) (v : Byte) : (s.setReg i v).run = s.run := rfl
@[simp] theorem State.setReg_fault (i : RegIdx) (v : Byte) : (s.setReg i v).fault = s.fault := rfl
@[simp] theorem State.setReg_out (i : RegIdx) (v : Byte) : (s.setReg i v).out = s.out := rfl

/-! ### setSp -/

@[simp] theorem State.setSp_mem (v : Byte) : (s.setSp v).mem = s.mem := rfl
@[simp] theorem State.setSp_pc (v : Byte) : (s.setSp v).pc = s.pc := rfl
@[simp] theorem State.setSp_fl (v : Byte) : (s.setSp v).fl = s.fl := rfl
@[simp] theorem State.setSp_run (v : Byte) : (s.setSp v).run = s.run := rfl
@[simp] theorem State.setSp_fault (v : Byte) : (s.setSp v).fault = s.fault := rfl
@[simp] theorem State.setSp_out (v : Byte) : (s.setSp v).out = s.out := rfl

/-! ### setPc -/

@[simp] theorem State.setPc_mem (p : Pc) : (s.setPc p).mem = s.mem := rfl
@[simp] theorem State.setPc_regs (p : Pc) : (s.setPc p).regs = s.regs := rfl
@[simp] theorem State.setPc_pc (p : Pc) : (s.setPc p).pc = p := rfl
@[simp] theorem State.setPc_fl (p : Pc) : (s.setPc p).fl = s.fl := rfl
@[simp] theorem State.setPc_run (p : Pc) : (s.setPc p).run = s.run := rfl
@[simp] theorem State.setPc_fault (p : Pc) : (s.setPc p).fault = s.fault := rfl
@[simp] theorem State.setPc_out (p : Pc) : (s.setPc p).out = s.out := rfl
@[simp] theorem State.setPc_getReg (p : Pc) (r : RegIdx) : (s.setPc p).getReg r = s.getReg r := rfl
@[simp] theorem State.setPc_sp (p : Pc) : (s.setPc p).sp = s.sp := rfl

/-! ### advance -/

@[simp] theorem State.advance_mem (n : Nat) : (s.advance n).mem = s.mem := rfl
@[simp] theorem State.advance_regs (n : Nat) : (s.advance n).regs = s.regs := rfl
@[simp] theorem State.advance_pc (n : Nat) : (s.advance n).pc = s.pc + BitVec.ofNat 9 n := rfl
@[simp] theorem State.advance_fl (n : Nat) : (s.advance n).fl = s.fl := rfl
@[simp] theorem State.advance_run (n : Nat) : (s.advance n).run = s.run := rfl
@[simp] theorem State.advance_fault (n : Nat) : (s.advance n).fault = s.fault := rfl
@[simp] theorem State.advance_out (n : Nat) : (s.advance n).out = s.out := rfl
@[simp] theorem State.advance_getReg (n : Nat) (r : RegIdx) : (s.advance n).getReg r = s.getReg r := rfl
@[simp] theorem State.advance_sp (n : Nat) : (s.advance n).sp = s.sp := rfl

/-! ### setFl -/

@[simp] theorem State.setFl_mem (f : Flags) : (s.setFl f).mem = s.mem := rfl
@[simp] theorem State.setFl_regs (f : Flags) : (s.setFl f).regs = s.regs := rfl
@[simp] theorem State.setFl_pc (f : Flags) : (s.setFl f).pc = s.pc := rfl
@[simp] theorem State.setFl_fl (f : Flags) : (s.setFl f).fl = f := rfl
@[simp] theorem State.setFl_run (f : Flags) : (s.setFl f).run = s.run := rfl
@[simp] theorem State.setFl_fault (f : Flags) : (s.setFl f).fault = s.fault := rfl
@[simp] theorem State.setFl_out (f : Flags) : (s.setFl f).out = s.out := rfl
@[simp] theorem State.setFl_getReg (f : Flags) (r : RegIdx) : (s.setFl f).getReg r = s.getReg r := rfl
@[simp] theorem State.setFl_sp (f : Flags) : (s.setFl f).sp = s.sp := rfl

/-! ### halt -/

@[simp] theorem State.halt_mem : (s.halt).mem = s.mem := rfl
@[simp] theorem State.halt_regs : (s.halt).regs = s.regs := rfl
@[simp] theorem State.halt_pc : (s.halt).pc = s.pc := rfl
@[simp] theorem State.halt_fl : (s.halt).fl = s.fl := rfl
@[simp] theorem State.halt_run : (s.halt).run = .halted := rfl
@[simp] theorem State.halt_fault : (s.halt).fault = s.fault := rfl
@[simp] theorem State.halt_out : (s.halt).out = s.out := rfl
@[simp] theorem State.halt_getReg (r : RegIdx) : (s.halt).getReg r = s.getReg r := rfl
@[simp] theorem State.halt_sp : (s.halt).sp = s.sp := rfl

/-! ### emit -/

@[simp] theorem State.emit_mem (v : Byte) : (s.emit v).mem = s.mem := rfl
@[simp] theorem State.emit_regs (v : Byte) : (s.emit v).regs = s.regs := rfl
@[simp] theorem State.emit_pc (v : Byte) : (s.emit v).pc = s.pc := rfl
@[simp] theorem State.emit_fl (v : Byte) : (s.emit v).fl = s.fl := rfl
@[simp] theorem State.emit_run (v : Byte) : (s.emit v).run = s.run := rfl
@[simp] theorem State.emit_fault (v : Byte) : (s.emit v).fault = s.fault := rfl
@[simp] theorem State.emit_out (v : Byte) : (s.emit v).out = s.out ++ [v] := rfl
@[simp] theorem State.emit_getReg (v : Byte) (r : RegIdx) : (s.emit v).getReg r = s.getReg r := rfl
@[simp] theorem State.emit_sp (v : Byte) : (s.emit v).sp = s.sp := rfl

/-! ### raise -/

@[simp] theorem raise_mem (e : Exn) : (raise e s).mem = s.mem := rfl
@[simp] theorem raise_regs (e : Exn) : (raise e s).regs = s.regs := rfl
@[simp] theorem raise_pc (e : Exn) : (raise e s).pc = s.pc := rfl
@[simp] theorem raise_fl (e : Exn) : (raise e s).fl = s.fl := rfl
@[simp] theorem raise_run (e : Exn) : (raise e s).run = .faulted := rfl
@[simp] theorem raise_fault (e : Exn) :
    (raise e s).fault = some { cause := e.cause, pc := s.pc, info := e.info } := rfl
@[simp] theorem raise_out (e : Exn) : (raise e s).out = s.out := rfl
@[simp] theorem raise_getReg (e : Exn) (r : RegIdx) : (raise e s).getReg r = s.getReg r := rfl
@[simp] theorem raise_sp (e : Exn) : (raise e s).sp = s.sp := rfl

end Updates

/-! ### The register file -/

@[simp] theorem State.getReg_setReg_self (s : State) (i : RegIdx) (v : Byte) : (s.setReg i v).getReg i = v := by
  simp [State.getReg, State.setReg]

theorem State.getReg_setReg_of_ne (s : State) {i j : RegIdx} (v : Byte) (h : j ≠ i) :
    (s.setReg i v).getReg j = s.getReg j := by
  have h' : i.val ≠ j.val := fun e => h (Fin.ext e.symm)
  simp [State.getReg, State.setReg, Vector.getElem_set_ne, h']

theorem State.getReg_setReg (s : State) (i j : RegIdx) (v : Byte) :
    (s.setReg i v).getReg j = if j = i then v else s.getReg j := by
  by_cases h : j = i
  · subst h; simp
  · simp [h, State.getReg_setReg_of_ne s v h]

theorem State.getReg_setSp (s : State) (j : RegIdx) (v : Byte) :
    (s.setSp v).getReg j = if j = 7 then v else s.getReg j := State.getReg_setReg s spReg j v

@[simp] theorem State.sp_setSp (s : State) (v : Byte) : (s.setSp v).sp = v := State.getReg_setReg_self s spReg v

theorem State.sp_setReg (s : State) (i : RegIdx) (v : Byte) : (s.setReg i v).sp = if i = 7 then v else s.sp := by
  rw [State.sp, State.getReg_setReg]
  simp [eq_comm, State.sp, spReg]

end Sys2Proof.Machine
end

