-- ==== Sys2Proof/Laws/Ops.lean ====
section
/-! SUPPORT. What each shared operation can do, said once. -/

namespace Sys2Proof.Machine

/-! ### Sequencing of checks -/

@[simp] theorem ok_bind {α β : Type} (x : α) (f : α → Except Exn β) : ((Except.ok x : Except Exn α) >>= f) = f x := rfl

@[simp] theorem error_bind {α β : Type} (e : Exn) (f : α → Except Exn β) :
    ((Except.error e : Except Exn α) >>= f) = .error e := rfl

@[simp] theorem complete_ok (s t : State) : complete s (.ok t) = .next t := rfl

@[simp] theorem complete_error (s : State) (e : Exn) : complete s (.error e) = .next (raise e s) := rfl

/-- An instruction ends in the state its handler built, or in the exception taken from where it began. -/
theorem complete_cases {s t : State} {r : Except Exn State} (h : complete s r = .next t) :
    r = .ok t ∨ ∃ e, r = .error e ∧ t = raise e s := by
  cases r with
  | ok u => exact .inl (by simpa using h)
  | error e => exact .inr ⟨e, rfl, by simpa using h.symm⟩

/-! ### Memory accesses -/

theorem memRead_ok (s : State) {addr : Int} (h0 : 0 ≤ addr) (h1 : addr < 256) :
    memRead addr s = .ok (s.mem.read addr.toNat) := by
  have h : ¬ (addr < 0 ∨ (256 : Int) ≤ addr) := by omega
  simp [memRead, h]

@[simp] theorem memRead_byte (s : State) (a : Byte) : memRead a.toNat s = .ok (s.mem.read a.toNat) := by
  have := a.isLt
  rw [memRead_ok s (by omega) (by omega), Int.toNat_natCast]

theorem memRead_error (s : State) {addr : Int} (h : addr < 0 ∨ 256 ≤ addr) :
    memRead addr s = .error (.outOfBounds addr) := by simp [memRead, h]

theorem memWrite_ok (s : State) (v : Byte) {addr : Int} (h0 : 0 ≤ addr) (h1 : addr < 256) :
    memWrite addr v s = .ok { s with mem := s.mem.write addr.toNat v } := by
  have h : ¬ (addr < 0 ∨ (256 : Int) ≤ addr) := by omega
  simp [memWrite, h]

@[simp] theorem memWrite_byte (s : State) (a v : Byte) :
    memWrite a.toNat v s = .ok { s with mem := s.mem.write a.toNat v } := by
  have := a.isLt
  rw [memWrite_ok s v (by omega) (by omega), Int.toNat_natCast]

theorem memWrite_error (s : State) (v : Byte) {addr : Int} (h : addr < 0 ∨ 256 ≤ addr) :
    memWrite addr v s = .error (.outOfBounds addr) := by simp [memWrite, h]

@[simp] theorem stackTop_eq (s : State) : stackTop s = .ok (s.mem.read s.sp.toNat) := memRead_byte s s.sp

/-! ### The stack pointer and the push -/

theorem decSp_zero {s : State} (h : s.sp = 0#8) : decSp s = .error (.outOfBounds (-1)) := by simp [decSp, h]

theorem decSp_ok {s : State} (h : s.sp ≠ 0#8) : decSp s = .ok (s.setSp (s.sp - 1#8)) := by simp [decSp, h]

theorem incSp_max {s : State} (h : s.sp = 255#8) : incSp s = .error (.outOfBounds 256) := by simp [incSp, h]

theorem incSp_ok {s : State} (h : s.sp ≠ 255#8) : incSp s = .ok (s.setSp (s.sp + 1#8)) := by simp [incSp, h]

theorem pushByte_zero {s : State} (value : State → Byte) (h : s.sp = 0#8) :
    pushByte value s = .error (.outOfBounds (-1)) := by simp [pushByte, decSp_zero h]

/-- All that a push does: `SP` goes down by one and the cell there takes the value. -/
theorem pushByte_ok {s : State} (value : State → Byte) (h : s.sp ≠ 0#8) :
    pushByte value s = .ok { s.setSp (s.sp - 1#8) with
      mem := s.mem.write (s.sp - 1#8).toNat (value (s.setSp (s.sp - 1#8))) } := by
  simp [pushByte, decSp_ok h]

theorem toNat_sub_one {v : Byte} (h : v ≠ 0#8) : (v - 1#8).toNat = v.toNat - 1 := by bv_omega

theorem toNat_add_one {v : Byte} (h : v ≠ 255#8) : (v + 1#8).toNat = v.toNat + 1 := by bv_omega

@[simp] theorem toNat_zext9 (v : Byte) : (zext9 v).toNat = v.toNat := by
  simp [zext9]; omega

/-! ### Operands -/

theorem regOperand_valid {operand : Byte} (h : operand.toNat < 8) :
    regOperand operand = .ok ⟨operand.toNat, h⟩ := by simp [regOperand, h]

theorem regOperand_invalid {operand : Byte} (h : 8 ≤ operand.toNat) :
    regOperand operand = .error (.invalidRegister operand) := by
  simp [regOperand, Nat.not_lt.mpr h]

/-! ### The flags as a byte -/

theorem flagLayout_distinct : flagLayout.Distinct := by decide

@[simp] theorem flagBit_getLsbD (set : Bool) (position : Fin 8) (k : Nat) :
    (flagBit set position).getLsbD k = (set && decide (k = position.val)) := by
  have h : BitVec.ofNat 8 (2 ^ position.val) = BitVec.twoPow 8 position.val := BitVec.eq_of_toNat_eq (by simp)
  cases set <;> simp [flagBit, h, BitVec.getLsbD_twoPow, eq_comm]

/-- Bit k of `FL` is the flag whose position is k, if there is one. -/
theorem toByteWith_getLsbD (p : FlagLayout) (f : Flags) (k : Nat) :
    (f.toByteWith p).getLsbD k =
      (f.e && decide (k = p.e.val) || f.g && decide (k = p.g.val) || f.l && decide (k = p.l.val)) := by
  simp [Flags.toByteWith]

end Sys2Proof.Machine
end

