-- ==== Sys2Proof/Laws/PerInstr.lean ====
section
/-! SUPPORT. Statements about every instruction as syntax, one lemma per constructor. -/

namespace Sys2Proof.Laws

/-- The encoding is the row's opcode byte followed by the operands, one to three bytes in all, as the row's
format says (R50, R54), and well-formedness looks at register operands alone (R53). -/
def EncodedShape.Statement (i : Instr) : Prop :=
  ∀ m : OpcodeMap, (encodeWith m i).head? = some (m.code i.op) ∧ (encodeWith m i).tail = i.operands ∧
    1 ≤ (encodeWith m i).length ∧ (encodeWith m i).length ≤ 3 ∧
    (i.wellFormed = true → ∀ a ∈ i.operands.head?, a.toNat < 8)

namespace EncodedShape

theorem hlt : Statement .hlt := by intro m; simp [encodeWith, Instr.operands]
theorem ldi (a b : Byte) : Statement (.ldi a b) := by
  intro m; simp [encodeWith, Instr.operands, Instr.wellFormed, validReg]
theorem prn (a : Byte) : Statement (.prn a) := by
  intro m; simp [encodeWith, Instr.operands, Instr.wellFormed, validReg]
theorem add (a b : Byte) : Statement (.add a b) := by
  intro m; simp +contextual [encodeWith, Instr.operands, Instr.wellFormed, validReg]
theorem mul (a b : Byte) : Statement (.mul a b) := by
  intro m; simp +contextual [encodeWith, Instr.operands, Instr.wellFormed, validReg]
theorem cmp (a b : Byte) : Statement (.cmp a b) := by
  intro m; simp +contextual [encodeWith, Instr.operands, Instr.wellFormed, validReg]
theorem jmp (a : Byte) : Statement (.jmp a) := by
  intro m; simp [encodeWith, Instr.operands, Instr.wellFormed, validReg]
theorem jeq (a : Byte) : Statement (.jeq a) := by
  intro m; simp [encodeWith, Instr.operands, Instr.wellFormed, validReg]
theorem jne (a : Byte) : Statement (.jne a) := by
  intro m; simp [encodeWith, Instr.operands, Instr.wellFormed, validReg]
theorem push (a : Byte) : Statement (.push a) := by
  intro m; simp [encodeWith, Instr.operands, Instr.wellFormed, validReg]
theorem pop (a : Byte) : Statement (.pop a) := by
  intro m; simp [encodeWith, Instr.operands, Instr.wellFormed, validReg]
theorem call (a : Byte) : Statement (.call a) := by
  intro m; simp [encodeWith, Instr.operands, Instr.wellFormed, validReg]
theorem ret : Statement .ret := by intro m; simp [encodeWith, Instr.operands]

end EncodedShape

end Sys2Proof.Laws
end

