-- ==== Sys2Proof/Laws/Step.lean ====
section
/-! SUPPORT. What a fetch and a step can do. -/

namespace Sys2Proof.Machine

/-! ### Fetch -/

theorem fetchByte_ok {s : State} {k : Nat} (h : s.pc.toNat + k < 256) :
    fetchByte s k = .ok (s.mem.read (s.pc.toNat + k)) := by
  rw [fetchByte, memRead_ok s (by omega) (by omega), Int.toNat_natCast]

theorem fetchByte_error {s : State} {k : Nat} (h : 256 ≤ s.pc.toNat + k) :
    fetchByte s k = .error (.outOfBounds ((s.pc.toNat + k : Nat) : Int)) :=
  memRead_error s (.inr (by omega))

theorem fetchByte_ok_inv {s : State} {k : Nat} {b : Byte} (h : fetchByte s k = .ok b) :
    s.pc.toNat + k < 256 ∧ b = s.mem.read (s.pc.toNat + k) := by
  by_cases hk : s.pc.toNat + k < 256
  · rw [fetchByte_ok hk] at h
    exact ⟨hk, by simpa using h.symm⟩
  · rw [fetchByte_error (by omega)] at h
    cases h

/-- A fetched instruction lies in memory, whole, as its encoding (R50, R75). -/
theorem fetch_inv {m : OpcodeMap} {s : State} {i : Instr} (h : fetchWith m s = .ok i) :
    s.pc.toNat + i.length ≤ 256 ∧ m.lookup (s.mem.read s.pc.toNat) = some i.op ∧
      ∀ k (hk : k < (encodeWith m i).length), s.mem.read (s.pc.toNat + k) = (encodeWith m i)[k] := by
  obtain ⟨opcode, h0, hop, hb⟩ := decodeFrom_inv h
  refine ⟨?_, ?_, fun k hk => (fetchByte_ok_inv (hb k hk)).2.symm⟩
  · have hpos : i.length = i.operands.length + 1 := rfl
    have := (fetchByte_ok_inv (hb i.operands.length (by simp [encodeWith]))).1
    omega
  · rw [← hop, (fetchByte_ok_inv h0).2, Nat.add_zero]

/-- An instruction that lies at `pc` is the one fetched. -/
theorem fetch_of_bytes {m : OpcodeMap} (hm : m.Distinct) {s : State} (i : Instr)
    (hfit : s.pc.toNat + i.length ≤ 256)
    (h : ∀ k (hk : k < (encodeWith m i).length), s.mem.read (s.pc.toNat + k) = (encodeWith m i)[k]) :
    fetchWith m s = .ok i :=
  decodeFrom_of_encode hm _ i fun k hk => by
    have : k < i.length := by simpa using hk
    rw [fetchByte_ok (by omega), h k hk]

/-! ### Step -/

theorem step_of_fetch {s : State} {i : Instr} (hr : s.run = .running) (h : fetch s = .ok i) :
    step s = exec i s := by
  simp only [fetch] at h
  simp [step, stepWith, hr, h]

theorem step_of_fetch_error {s : State} {e : Exn} (hr : s.run = .running) (h : fetch s = .error e) :
    step s = .next (raise e s) := by
  simp only [fetch] at h
  simp [step, stepWith, hr, h]

/-- All the ways a step can lead on: from Running, by the exception of a failed fetch or by the instruction. -/
theorem step_cases {s t : State} (h : step s = .next t) :
    s.run = .running ∧
      ((∃ e, fetch s = .error e ∧ t = raise e s) ∨ ∃ i, fetch s = .ok i ∧ exec i s = .next t) := by
  unfold step stepWith at h
  split at h
  · cases h
  · cases h
  · next hr =>
    refine ⟨hr, ?_⟩
    split at h
    · next e he => exact .inl ⟨e, he, by simpa using h.symm⟩
    · next i hi => exact .inr ⟨i, hi, h⟩

/-! ### Each instruction on valid operands, and on invalid ones -/

@[simp] theorem toNat_regByte (r : RegIdx) : (regByte r).toNat = r.val := by
  have := r.isLt
  simp [regByte]; omega

@[simp] theorem regOperand_regByte (r : RegIdx) : regOperand (regByte r) = .ok r := by
  rw [regOperand_valid (by simp)]
  simp

/-- A valid register operand is the byte of its index. -/
theorem eq_regByte {a : Byte} (h : a.toNat < 8) : a = regByte ⟨a.toNat, h⟩ := by
  apply BitVec.eq_of_toNat_eq
  simp

/-- A register operand either names a register or raises. -/
theorem regOperand_cases (a : Byte) :
    (∃ r : RegIdx, a = regByte r) ∨ (8 ≤ a.toNat ∧ regOperand a = .error (.invalidRegister a)) := by
  by_cases h : a.toNat < 8
  · exact .inl ⟨_, eq_regByte h⟩
  · exact .inr ⟨by omega, regOperand_invalid (by omega)⟩

section Meanings

variable (s : State) (r q : RegIdx) (b : Byte)

theorem execLdi_reg : execLdi (regByte r) b s = .next ((s.setReg r b).advance 3) := by
  simp [execLdi, immOperand]

theorem execPrn_reg : execPrn (regByte r) s = .next ((s.emit (s.getReg r)).advance 2) := by simp [execPrn]

theorem execAdd_reg :
    execAdd (regByte r) (regByte q) s = .next ((s.setReg r (s.getReg r + s.getReg q)).advance 3) := by
  simp [execAdd, aluOp]

theorem execMul_reg :
    execMul (regByte r) (regByte q) s = .next ((s.setReg r (s.getReg r * s.getReg q)).advance 3) := by
  simp [execMul, aluOp]

theorem execCmp_reg :
    execCmp (regByte r) (regByte q) s = .next ((s.setFl (compareFlags (s.getReg r) (s.getReg q))).advance 3) := by
  simp [execCmp]

theorem jumpIf_reg (taken : Bool) :
    jumpIf taken (regByte r) s = .ok (if taken then s.setPc (zext9 (s.getReg r)) else s.advance 2) := by
  simp [jumpIf]

theorem execJmp_reg : execJmp (regByte r) s = .next (s.setPc (zext9 (s.getReg r))) := by
  simp [execJmp, jumpIf_reg]

theorem execJeq_reg :
    execJeq (regByte r) s = .next (if s.fl.e then s.setPc (zext9 (s.getReg r)) else s.advance 2) := by
  simp [execJeq, jumpIf_reg]

theorem execJne_reg :
    execJne (regByte r) s = .next (if !s.fl.e then s.setPc (zext9 (s.getReg r)) else s.advance 2) := by
  simp [execJne, jumpIf_reg]

/-- The state after a PUSH of register r that does not fault. -/
def State.pushed (s : State) (r : RegIdx) : State :=
  State.advance { s.setSp (s.sp - 1#8) with
    mem := s.mem.write (s.sp - 1#8).toNat ((s.setSp (s.sp - 1#8)).getReg r) } 2

/-- `SP` as a POP into register r finds it when it comes to increment it: the popped byte when r is 7. -/
def State.popSp (s : State) (r : RegIdx) : Byte := (s.setReg r (s.mem.read s.sp.toNat)).sp

/-- The state after a POP into register r that does not fault. -/
def State.popped (s : State) (r : RegIdx) : State :=
  ((s.setReg r (s.mem.read s.sp.toNat)).setSp (s.popSp r + 1#8)).advance 2

/-- The state after a CALL through register r that does not fault. -/
def State.called (s : State) (r : RegIdx) : State :=
  State.setPc { s.setSp (s.sp - 1#8) with
      mem := s.mem.write (s.sp - 1#8).toNat (BitVec.ofNat 8 (s.pc.toNat + 2)) }
    (zext9 ((s.setSp (s.sp - 1#8)).getReg r))

/-- The state after a RET that does not fault. -/
def State.returned (s : State) : State :=
  (s.setSp (s.sp + 1#8)).setPc (zext9 (s.mem.read s.sp.toNat))

theorem execPush_zero (h : s.sp = 0#8) : execPush (regByte r) s = .next (raise (.outOfBounds (-1)) s) := by
  simp [execPush, pushByte_zero _ h]

theorem execPush_reg (h : s.sp ≠ 0#8) : execPush (regByte r) s = .next (s.pushed r) := by
  simp [execPush, pushByte_ok _ h, State.pushed]

theorem popSp_seven : s.popSp 7 = s.mem.read s.sp.toNat := by simp [State.popSp, State.sp_setReg]

theorem popSp_of_ne (hr : r ≠ 7) : s.popSp r = s.sp := by simp [State.popSp, State.sp_setReg, hr]

theorem execPop_max (h : s.popSp r = 255#8) : execPop (regByte r) s = .next (raise (.outOfBounds 256) s) := by
  simp only [State.popSp] at h
  simp [execPop, incSp_max h]

theorem execPop_reg (h : s.popSp r ≠ 255#8) : execPop (regByte r) s = .next (s.popped r) := by
  simp only [State.popSp] at h
  simp [execPop, incSp_ok h, State.popped, State.popSp]

theorem execRet_max (h : s.sp = 255#8) : execRet s = .next (raise (.outOfBounds 256) s) := by
  simp [execRet, incSp_max h]

theorem execRet_ok (h : s.sp ≠ 255#8) : execRet s = .next s.returned := by
  simp [execRet, incSp_ok h, State.returned]

theorem execCall_far (h : 254 ≤ s.pc.toNat) : execCall (regByte r) s = .next (raise (.outOfBounds 256) s) := by
  have h' : 255 < s.pc.toNat + 2 := by omega
  simp [execCall, returnAddress, h']

theorem execCall_zero (hp : s.pc.toNat ≤ 253) (h : s.sp = 0#8) :
    execCall (regByte r) s = .next (raise (.outOfBounds (-1)) s) := by
  have h' : ¬ 255 < s.pc.toNat + 2 := by omega
  simp [execCall, returnAddress, h', pushByte_zero _ h]

theorem execCall_reg (hp : s.pc.toNat ≤ 253) (h : s.sp ≠ 0#8) :
    execCall (regByte r) s = .next (s.called r) := by
  have h' : ¬ 255 < s.pc.toNat + 2 := by omega
  simp only [execCall, regOperand_regByte, returnAddress, h', if_false, pushByte_ok _ h, ok_bind, complete_ok]
  rfl

end Meanings

/-! ### The states a stack instruction leaves -/

section StackStates

variable (s : State) (r q : RegIdx)

@[simp] theorem pushed_pc : (s.pushed r).pc = s.pc + 2#9 := rfl
@[simp] theorem pushed_fl : (s.pushed r).fl = s.fl := rfl
@[simp] theorem pushed_run : (s.pushed r).run = s.run := rfl
@[simp] theorem pushed_fault : (s.pushed r).fault = s.fault := rfl
@[simp] theorem pushed_out : (s.pushed r).out = s.out := rfl
@[simp] theorem pushed_sp : (s.pushed r).sp = s.sp - 1#8 := State.sp_setSp s _

theorem pushed_getReg : (s.pushed r).getReg q = if q = 7 then s.sp - 1#8 else s.getReg q :=
  State.getReg_setSp s q _

theorem pushed_read_self : (s.pushed r).mem.read (s.sp - 1#8).toNat = (s.pushed r).getReg r :=
  Memory.read_write_self _ _ _

theorem pushed_read_of_ne {a : Nat} (h : a ≠ (s.sp - 1#8).toNat) : (s.pushed r).mem.read a = s.mem.read a :=
  Memory.read_write_of_ne _ _ h

@[simp] theorem popped_mem : (s.popped r).mem = s.mem := rfl
@[simp] theorem popped_pc : (s.popped r).pc = s.pc + 2#9 := rfl
@[simp] theorem popped_fl : (s.popped r).fl = s.fl := rfl
@[simp] theorem popped_run : (s.popped r).run = s.run := rfl
@[simp] theorem popped_fault : (s.popped r).fault = s.fault := rfl
@[simp] theorem popped_out : (s.popped r).out = s.out := rfl
@[simp] theorem popped_sp : (s.popped r).sp = s.popSp r + 1#8 := State.sp_setSp _ _

theorem popped_getReg : (s.popped r).getReg q =
    if q = 7 then s.popSp r + 1#8 else if q = r then s.mem.read s.sp.toNat else s.getReg q :=
  (State.getReg_setSp _ q _).trans (by rw [State.getReg_setReg])

@[simp] theorem called_fl : (s.called r).fl = s.fl := rfl
@[simp] theorem called_run : (s.called r).run = s.run := rfl
@[simp] theorem called_fault : (s.called r).fault = s.fault := rfl
@[simp] theorem called_out : (s.called r).out = s.out := rfl
@[simp] theorem called_sp : (s.called r).sp = s.sp - 1#8 := State.sp_setSp s _
@[simp] theorem called_pc : (s.called r).pc = zext9 ((s.called r).getReg r) := rfl

theorem called_getReg : (s.called r).getReg q = if q = 7 then s.sp - 1#8 else s.getReg q :=
  State.getReg_setSp s q _

theorem called_read_self : (s.called r).mem.read (s.sp - 1#8).toNat = BitVec.ofNat 8 (s.pc.toNat + 2) :=
  Memory.read_write_self _ _ _

theorem called_read_of_ne {a : Nat} (h : a ≠ (s.sp - 1#8).toNat) : (s.called r).mem.read a = s.mem.read a :=
  Memory.read_write_of_ne _ _ h

@[simp] theorem returned_mem : s.returned.mem = s.mem := rfl
@[simp] theorem returned_pc : s.returned.pc = zext9 (s.mem.read s.sp.toNat) := rfl
@[simp] theorem returned_fl : s.returned.fl = s.fl := rfl
@[simp] theorem returned_run : s.returned.run = s.run := rfl
@[simp] theorem returned_fault : s.returned.fault = s.fault := rfl
@[simp] theorem returned_out : s.returned.out = s.out := rfl
@[simp] theorem returned_sp : s.returned.sp = s.sp + 1#8 := State.sp_setSp s _

theorem returned_getReg : s.returned.getReg q = if q = 7 then s.sp + 1#8 else s.getReg q :=
  State.getReg_setSp s q _

end StackStates

/-! ### All that an instruction can do -/

/-- The exceptions an instruction can take by itself (R161, R162). -/
def Exn.ofExec (e : Exn) : Prop :=
  e = .outOfBounds 256 ∨ e = .outOfBounds (-1) ∨ ∃ a : Byte, 8 ≤ a.toNat ∧ e = .invalidRegister a

/-- An operand that both states check alike: both raise, or both go on with the register it names. -/
theorem execRegister_pair {s u t : State} {a : Byte} {k : RegIdx → Except Exn State}
    (h : complete s (regOperand a >>= k) = .next t) :
    (∃ e, Exn.ofExec e ∧ t = raise e s ∧
        ∀ l : RegIdx → Except Exn State, complete u (regOperand a >>= l) = .next (raise e u)) ∨
      ∃ r, a = regByte r ∧ complete s (k r) = .next t := by
  obtain ⟨r, rfl⟩ | ⟨ha, hr⟩ := regOperand_cases a
  · exact .inr ⟨r, rfl, by simpa using h⟩
  · rw [hr] at h ⊢
    exact .inl ⟨_, .inr (.inr ⟨a, ha, rfl⟩), by simpa using h.symm, fun _ => rfl⟩

/-- The same for two operands, `a` checked before `b`. -/
theorem execRegisters_pair {s u t : State} {a b : Byte} {k : RegIdx → RegIdx → Except Exn State}
    (h : complete s (regOperand a >>= fun ra => regOperand b >>= k ra) = .next t) :
    (∃ e, Exn.ofExec e ∧ t = raise e s ∧ ∀ l : RegIdx → RegIdx → Except Exn State,
        complete u (regOperand a >>= fun ra => regOperand b >>= l ra) = .next (raise e u)) ∨
      ∃ r q, a = regByte r ∧ b = regByte q := by
  obtain ⟨e, he, ht, hu⟩ | ⟨r, rfl, h'⟩ := execRegister_pair (u := u) h
  · exact .inl ⟨e, he, ht, fun l => hu _⟩
  obtain ⟨e, he, ht, hu⟩ | ⟨q, rfl, -⟩ := execRegister_pair (u := u) h'
  · exact .inl ⟨e, he, ht, fun l => by simpa using hu (l r)⟩
  · exact .inr ⟨r, q, rfl, rfl⟩

/-- Two states that agree in memory, registers and `pc` run an instruction alike, each branching on its own
`FL.E`: one case for each way it ends, with the state it gives from either. -/
theorem exec_elim_pair {P : Instr → State → State → Prop} {s u : State}
    (hmem : u.mem = s.mem) (hregs : u.regs = s.regs) (hpc : u.pc = s.pc)
    (hraise : ∀ i e, Exn.ofExec e → P i (raise e s) (raise e u))
    (hhlt : P .hlt s.halt u.halt)
    (hldi : ∀ r b, P (.ldi (regByte r) b) ((s.setReg r b).advance 3)
      ((u.setReg r b).advance 3))
    (hprn : ∀ r, P (.prn (regByte r)) ((s.emit (s.getReg r)).advance 2)
      ((u.emit (u.getReg r)).advance 2))
    (hadd : ∀ r q, P (.add (regByte r) (regByte q)) ((s.setReg r (s.getReg r + s.getReg q)).advance 3)
      ((u.setReg r (u.getReg r + u.getReg q)).advance 3))
    (hmul : ∀ r q, P (.mul (regByte r) (regByte q)) ((s.setReg r (s.getReg r * s.getReg q)).advance 3)
      ((u.setReg r (u.getReg r * u.getReg q)).advance 3))
    (hcmp : ∀ r q, P (.cmp (regByte r) (regByte q)) ((s.setFl (compareFlags (s.getReg r) (s.getReg q))).advance 3)
      ((u.setFl (compareFlags (u.getReg r) (u.getReg q))).advance 3))
    (hjmp : ∀ r, P (.jmp (regByte r)) (s.setPc (zext9 (s.getReg r)))
      (u.setPc (zext9 (u.getReg r))))
    (hjeq : ∀ r, P (.jeq (regByte r)) (if s.fl.e then s.setPc (zext9 (s.getReg r)) else s.advance 2)
      (if u.fl.e then u.setPc (zext9 (u.getReg r)) else u.advance 2))
    (hjne : ∀ r, P (.jne (regByte r)) (if !s.fl.e then s.setPc (zext9 (s.getReg r)) else s.advance 2)
      (if !u.fl.e then u.setPc (zext9 (u.getReg r)) else u.advance 2))
    (hpush : ∀ r, s.sp ≠ 0#8 → P (.push (regByte r)) (s.pushed r)
      (u.pushed r))
    (hpop : ∀ r, s.popSp r ≠ 255#8 → P (.pop (regByte r)) (s.popped r)
      (u.popped r))
    (hcall : ∀ r, s.pc.toNat ≤ 253 → s.sp ≠ 0#8 → P (.call (regByte r)) (s.called r)
      (u.called r))
    (hret : s.sp ≠ 255#8 → P .ret s.returned
      u.returned)
    {i : Instr} {t : State} (h : exec i s = .next t) : ∃ t', exec i u = .next t' ∧ P i t t' := by
  have key : ∀ {j : Instr} {v v' : State}, exec j s = .next v → exec j s = .next t → exec j u = .next v' → P j v v' →
      ∃ t', exec j u = .next t' ∧ P j t t' := by
    intro j v v' h1 h2 h3 hp
    rw [h1] at h2
    cases h2
    exact ⟨v', h3, hp⟩
  have hget : ∀ r, u.getReg r = s.getReg r := fun r => by simp only [State.getReg, hregs]
  have hsp : u.sp = s.sp := hget spReg
  have hpopSp : ∀ r, u.popSp r = s.popSp r := fun r => by
    simp only [State.popSp, State.sp_setReg, hmem, hsp]
  cases i with
  | hlt => exact key rfl h rfl hhlt
  | ldi a b =>
    obtain ⟨e, he, rfl, hu⟩ | ⟨r, rfl, -⟩ := execRegister_pair (u := u) h
    · exact ⟨_, hu _, hraise _ e he⟩
    · exact key (execLdi_reg s r b) h (execLdi_reg u r b) (hldi r b)
  | prn a =>
    obtain ⟨e, he, rfl, hu⟩ | ⟨r, rfl, -⟩ := execRegister_pair (u := u) h
    · exact ⟨_, hu _, hraise _ e he⟩
    · exact key (execPrn_reg s r) h (execPrn_reg u r) (hprn r)
  | add a b =>
    obtain ⟨e, he, rfl, hu⟩ | ⟨r, q, rfl, rfl⟩ := execRegisters_pair (u := u) h
    · exact ⟨_, hu _, hraise _ e he⟩
    · exact key (execAdd_reg s r q) h (execAdd_reg u r q) (hadd r q)
  | mul a b =>
    obtain ⟨e, he, rfl, hu⟩ | ⟨r, q, rfl, rfl⟩ := execRegisters_pair (u := u) h
    · exact ⟨_, hu _, hraise _ e he⟩
    · exact key (execMul_reg s r q) h (execMul_reg u r q) (hmul r q)
  | cmp a b =>
    obtain ⟨e, he, rfl, hu⟩ | ⟨r, q, rfl, rfl⟩ := execRegisters_pair (u := u) h
    · exact ⟨_, hu _, hraise _ e he⟩
    · exact key (execCmp_reg s r q) h (execCmp_reg u r q) (hcmp r q)
  | jmp a =>
    obtain ⟨e, he, rfl, hu⟩ | ⟨r, rfl, -⟩ := execRegister_pair (u := u) h
    · exact ⟨_, hu _, hraise _ e he⟩
    · exact key (execJmp_reg s r) h (execJmp_reg u r) (hjmp r)
  | jeq a =>
    obtain ⟨e, he, rfl, hu⟩ | ⟨r, rfl, -⟩ := execRegister_pair (u := u) h
    · exact ⟨_, hu _, hraise _ e he⟩
    · exact key (execJeq_reg s r) h (execJeq_reg u r) (hjeq r)
  | jne a =>
    obtain ⟨e, he, rfl, hu⟩ | ⟨r, rfl, -⟩ := execRegister_pair (u := u) h
    · exact ⟨_, hu _, hraise _ e he⟩
    · exact key (execJne_reg s r) h (execJne_reg u r) (hjne r)
  | push a =>
    obtain ⟨e, he, rfl, hu⟩ | ⟨r, rfl, -⟩ := execRegister_pair (u := u) h
    · exact ⟨_, hu _, hraise _ e he⟩
    by_cases h0 : s.sp = 0#8
    · exact key (execPush_zero s r h0) h (execPush_zero u r (hsp.trans h0)) (hraise _ _ (.inr (.inl rfl)))
    · exact key (execPush_reg s r h0) h (execPush_reg u r (hsp ▸ h0)) (hpush r h0)
  | pop a =>
    obtain ⟨e, he, rfl, hu⟩ | ⟨r, rfl, -⟩ := execRegister_pair (u := u) h
    · exact ⟨_, hu _, hraise _ e he⟩
    by_cases h0 : s.popSp r = 255#8
    · exact key (execPop_max s r h0) h (execPop_max u r ((hpopSp r).trans h0)) (hraise _ _ (.inl rfl))
    · exact key (execPop_reg s r h0) h (execPop_reg u r (hpopSp r ▸ h0)) (hpop r h0)
  | call a =>
    obtain ⟨e, he, rfl, hu⟩ | ⟨r, rfl, -⟩ := execRegister_pair (u := u) h
    · exact ⟨_, hu _, hraise _ e he⟩
    by_cases hp : s.pc.toNat ≤ 253
    · by_cases h0 : s.sp = 0#8
      · exact key (execCall_zero s r hp h0) h (execCall_zero u r (hpc ▸ hp) (hsp.trans h0)) (hraise _ _ (.inr (.inl rfl)))
      · exact key (execCall_reg s r hp h0) h (execCall_reg u r (hpc ▸ hp) (hsp ▸ h0)) (hcall r hp h0)
    · have hf : 254 ≤ s.pc.toNat := by omega
      exact key (execCall_far s r hf) h (execCall_far u r (hpc ▸ hf)) (hraise _ _ (.inl rfl))
  | ret =>
    by_cases h0 : s.sp = 255#8
    · exact key (execRet_max s h0) h (execRet_max u (hsp.trans h0)) (hraise _ _ (.inl rfl))
    · exact key (execRet_ok s h0) h (execRet_ok u (hsp ▸ h0)) (hret h0)

/-- One case for each way an instruction ends: an exception, or, for valid operands, the state its rule gives.
A property of those states is a property of whatever `exec` answers. -/
theorem exec_elim {P : Instr → State → Prop} {s : State}
    (hraise : ∀ i e, Exn.ofExec e → P i (raise e s))
    (hhlt : P .hlt s.halt)
    (hldi : ∀ r b, P (.ldi (regByte r) b) ((s.setReg r b).advance 3))
    (hprn : ∀ r, P (.prn (regByte r)) ((s.emit (s.getReg r)).advance 2))
    (hadd : ∀ r q, P (.add (regByte r) (regByte q)) ((s.setReg r (s.getReg r + s.getReg q)).advance 3))
    (hmul : ∀ r q, P (.mul (regByte r) (regByte q)) ((s.setReg r (s.getReg r * s.getReg q)).advance 3))
    (hcmp : ∀ r q, P (.cmp (regByte r) (regByte q)) ((s.setFl (compareFlags (s.getReg r) (s.getReg q))).advance 3))
    (hjmp : ∀ r, P (.jmp (regByte r)) (s.setPc (zext9 (s.getReg r))))
    (hjeq : ∀ r, P (.jeq (regByte r)) (if s.fl.e then s.setPc (zext9 (s.getReg r)) else s.advance 2))
    (hjne : ∀ r, P (.jne (regByte r)) (if !s.fl.e then s.setPc (zext9 (s.getReg r)) else s.advance 2))
    (hpush : ∀ r, s.sp ≠ 0#8 → P (.push (regByte r)) (s.pushed r))
    (hpop : ∀ r, s.popSp r ≠ 255#8 → P (.pop (regByte r)) (s.popped r))
    (hcall : ∀ r, s.pc.toNat ≤ 253 → s.sp ≠ 0#8 → P (.call (regByte r)) (s.called r))
    (hret : s.sp ≠ 255#8 → P .ret s.returned)
    {i : Instr} {t : State} (h : exec i s = .next t) : P i t := by
  obtain ⟨_, -, hp⟩ := exec_elim_pair (P := fun i t _ => P i t) (u := s) rfl rfl rfl
    hraise hhlt hldi hprn hadd hmul hcmp hjmp hjeq hjne hpush hpop hcall hret h
  exact hp

/-- Every meaning answers a next state, whatever the operands and the state. -/
theorem exec_answers_next (i : Instr) (s : State) : ∃ t, exec i s = .next t := by
  have complete_next : ∀ r, ∃ t, complete s r = .next t := fun r => by cases r <;> exact ⟨_, rfl⟩
  cases i <;> simp only [exec, execHlt, execLdi, execPrn, execAdd, execMul, execCmp, execJmp, execJeq, execJne,
    execPush, execPop, execCall, execRet] <;> exact complete_next _

/-- The exceptions a fetch can raise from a `pc` of 0..256: `OutOfBounds(256)`, or `IllegalInstruction` with the
byte at `pc`, which is no opcode (R73 to R75). -/
theorem fetch_error_inv {m : OpcodeMap} {s : State} {e : Exn} (hp : s.pc.toNat ≤ 256)
    (h : fetchWith m s = .error e) :
    e = .outOfBounds 256 ∨
      e = .illegalInstruction (s.mem.read s.pc.toNat) ∧ m.lookup (s.mem.read s.pc.toNat) = none := by
  have past : ∀ {k : Nat} {e' : Exn}, (∀ j < k, s.pc.toNat + j < 256) → fetchByte s k = .error e' →
      e' = .outOfBounds 256 := by
    intro k e' hlt he
    by_cases hk : s.pc.toNat + k < 256
    · rw [fetchByte_ok hk] at he; cases he
    · rw [fetchByte_error (by omega)] at he
      have : s.pc.toNat + k = 256 := by
        cases k with
        | zero => omega
        | succ k => have := hlt k (by omega); omega
      rw [this] at he
      cases he; rfl
  unfold fetchWith decodeFrom at h
  split at h
  · next e' he => cases h; exact .inl (past (by omega) he)
  · next opcode h0 =>
    obtain ⟨hlt0, rfl⟩ := fetchByte_ok_inv h0
    split at h
    · next hop => cases h; exact .inr ⟨rfl, hop⟩
    · next op hop =>
      left
      have one : ∀ {e'}, fetchByte s 1 = .error e' → e' = .outOfBounds 256 :=
        past fun j hj => by omega
      have two : ∀ {a e'}, fetchByte s 1 = .ok a → fetchByte s 2 = .error e' → e' = .outOfBounds 256 :=
        fun ha => past fun j hj => by have := (fetchByte_ok_inv ha).1; omega
      cases op
      case hlt | ret => cases h
      case prn | jmp | jeq | jne | push | pop | call =>
        simp only [operandFetch, operandsF1] at h
        split at h
        · next he => cases h; exact one he
        · cases h
      case ldi | add | mul | cmp =>
        simp only [operandFetch, operandsF2] at h
        split at h
        · next he => cases h; exact one he
        · next ha =>
          split at h
          · next he => cases h; exact two ha he
          · cases h

end Sys2Proof.Machine
end

