-- ==== Sys2Proof/Tests/Slice0.lean ====
section
/-! SUPPORT. Tests: words written out from the spec's encodings, ill-formed terms, one-step tests with expected
results from spec/95_test_vectors.md, and a witness for the hypotheses of every statement that has some. -/

namespace Sys2Proof.Tests

open Sys2Proof.Machine

/-- Reset, with these bytes at `pc` and these values of x[0], x[1], x[2] and SP. -/
def base (pc : Pc) (code : List Byte) (x0 x1 x2 sp : Byte) : State :=
  placeAtPc code { State.reset with pc := pc, regs := #v[x0, x1, x2, 0#8, 0#8, 0#8, 0#8, sp] }

/-- `s` with one cell set. -/
def withCell (a : Nat) (v : Byte) (s : State) : State := { s with mem := s.mem.write a v }

/-- `s` with other flags. -/
def withFlags (f : Flags) (s : State) : State := { s with fl := f }

/-- The next state, if there is one. -/
def nextOf : Result → Option State
  | .next t => some t
  | _ => none

/-- The next state of a step has this property. -/
def stepTo (s : State) (p : State → Bool) : Bool := (nextOf (step s)).any p

/-- The step from `s` faults with this cause and info, and keeps registers, memory, flags, output and `pc`. -/
def stepFaults (s : State) (cause : Cause) (info : Int) : Bool :=
  stepTo s fun t => decide (t.run = .faulted ∧ t.fault = some { cause := cause, pc := s.pc, info := info } ∧
    t.regs = s.regs ∧ t.mem = s.mem ∧ t.fl = s.fl ∧ t.out = s.out ∧ t.pc = s.pc)

/-! ### Decoding: R54's rows, bit by bit; and bytes that are no opcode (R58) -/

theorem test_decode_hlt :
    (decode [0b00000001#8, 0b11111111#8]).toOption = some (.hlt, [0b11111111#8]) := by decide
theorem test_decode_ldi :
    (decode [0b10000010#8, 0b00000101#8, 0b00000110#8, 0b11111111#8]).toOption = some ((.ldi 5#8 6#8), [0b11111111#8]) := by decide
theorem test_decode_prn :
    (decode [0b01000111#8, 0b00000101#8, 0b11111111#8]).toOption = some ((.prn 5#8), [0b11111111#8]) := by decide
theorem test_decode_add :
    (decode [0b10100000#8, 0b00000101#8, 0b00000110#8, 0b11111111#8]).toOption = some ((.add 5#8 6#8), [0b11111111#8]) := by decide
theorem test_decode_mul :
    (decode [0b10100010#8, 0b00000101#8, 0b00000110#8, 0b11111111#8]).toOption = some ((.mul 5#8 6#8), [0b11111111#8]) := by decide
theorem test_decode_cmp :
    (decode [0b10100111#8, 0b00000101#8, 0b00000110#8, 0b11111111#8]).toOption = some ((.cmp 5#8 6#8), [0b11111111#8]) := by decide
theorem test_decode_jmp :
    (decode [0b01010100#8, 0b00000101#8, 0b11111111#8]).toOption = some ((.jmp 5#8), [0b11111111#8]) := by decide
theorem test_decode_jeq :
    (decode [0b01010101#8, 0b00000101#8, 0b11111111#8]).toOption = some ((.jeq 5#8), [0b11111111#8]) := by decide
theorem test_decode_jne :
    (decode [0b01010110#8, 0b00000101#8, 0b11111111#8]).toOption = some ((.jne 5#8), [0b11111111#8]) := by decide
theorem test_decode_push :
    (decode [0b01000101#8, 0b00000101#8, 0b11111111#8]).toOption = some ((.push 5#8), [0b11111111#8]) := by decide
theorem test_decode_pop :
    (decode [0b01000110#8, 0b00000101#8, 0b11111111#8]).toOption = some ((.pop 5#8), [0b11111111#8]) := by decide
theorem test_decode_call :
    (decode [0b01010000#8, 0b00000101#8, 0b11111111#8]).toOption = some ((.call 5#8), [0b11111111#8]) := by decide
theorem test_decode_ret :
    (decode [0b00010001#8, 0b11111111#8]).toOption = some (.ret, [0b11111111#8]) := by decide
theorem test_decode_nop_is_illegal : (decode [0#8]).toOption = none := by decide
theorem test_decode_ld_is_illegal : (decode [0x83#8, 0#8, 0#8]).toOption = none := by decide
theorem test_decode_short : (decode [0x82#8, 0#8]).toOption = none := by decide
theorem test_tableWord_ldi : decodeTableWord 24 0x080082 = some (.ldi 0#8 8#8) := by decide
theorem test_tableWord_opcode_only : decodeTableWord 8 0xA0 = some (.add 0#8 0#8) := by decide
theorem test_fetchWord_runs : stepTo (State.reset.withFetchWord 24 0x080082)
    (fun t => decide (t.getReg 0 = 8#8 ∧ t.pc = 3#9)) = true := by decide

/-! ### Well-formedness refuses each ill-formed operand (R53) -/

theorem test_wellFormed_ldi_a : Instr.wellFormed (.ldi 8#8 0#8) = false := by decide
theorem test_wellFormed_prn_a : Instr.wellFormed (.prn 8#8) = false := by decide
theorem test_wellFormed_add_a : Instr.wellFormed (.add 255#8 0#8) = false := by decide
theorem test_wellFormed_add_b : Instr.wellFormed (.add 7#8 8#8) = false := by decide
theorem test_wellFormed_mul_a : Instr.wellFormed (.mul 255#8 0#8) = false := by decide
theorem test_wellFormed_mul_b : Instr.wellFormed (.mul 7#8 8#8) = false := by decide
theorem test_wellFormed_cmp_a : Instr.wellFormed (.cmp 255#8 0#8) = false := by decide
theorem test_wellFormed_cmp_b : Instr.wellFormed (.cmp 7#8 8#8) = false := by decide
theorem test_wellFormed_jmp_a : Instr.wellFormed (.jmp 8#8) = false := by decide
theorem test_wellFormed_jeq_a : Instr.wellFormed (.jeq 8#8) = false := by decide
theorem test_wellFormed_jne_a : Instr.wellFormed (.jne 8#8) = false := by decide
theorem test_wellFormed_push_a : Instr.wellFormed (.push 8#8) = false := by decide
theorem test_wellFormed_pop_a : Instr.wellFormed (.pop 8#8) = false := by decide
theorem test_wellFormed_call_a : Instr.wellFormed (.call 8#8) = false := by decide
theorem test_wellFormed_ldi_immediate : Instr.wellFormed (.ldi 7#8 255#8) = true := by decide

/-! ### One step of each instruction; the vector of 95_test_vectors.md is named -/

/-- T1. -/
theorem test_hlt : stepTo (base 0x10#9 [0x01#8] 0#8 0#8 0#8 0xF4#8)
    (fun t => decide (t.run = .halted ∧ t.pc = 0x10#9)) = true := by decide
/-- T62. -/
theorem test_hlt_last_cell : stepTo (base 255#9 [0x01#8] 0#8 0#8 0#8 0xF4#8)
    (fun t => decide (t.run = .halted ∧ t.pc = 255#9)) = true := by decide
/-- T5. -/
theorem test_ldi_sp : stepTo (base 0x10#9 [0x82#8, 7#8, 0x80#8] 0#8 0#8 0#8 0xF4#8)
    (fun t => decide (t.sp = 0x80#8 ∧ t.getReg 7 = 0x80#8 ∧ t.pc = 0x13#9)) = true := by decide
/-- T65. -/
theorem test_ldi_operand_past_end : stepFaults (base 254#9 [0x82#8, 8#8] 254#8 0#8 0#8 0xF4#8)
    .outOfBounds 256 = true := by decide
/-- T8. -/
theorem test_prn : stepTo (base 0x10#9 [0x47#8, 2#8] 0#8 0#8 255#8 0xF4#8)
    (fun t => decide (t.out = [255#8] ∧ t.outLines = [['2', '5', '5']] ∧ t.pc = 0x12#9)) = true := by decide
/-- T63. -/
theorem test_prn_operand_past_end : stepFaults (base 255#9 [0x47#8] 255#8 0#8 0#8 0xF4#8)
    .outOfBounds 256 = true := by decide
/-- T13. -/
theorem test_add_same_register : stepTo (base 0x10#9 [0xA0#8, 0#8, 0#8] 200#8 0#8 0#8 0xF4#8)
    (fun t => decide (t.getReg 0 = 144#8 ∧ t.pc = 0x13#9)) = true := by decide
/-- T20. -/
theorem test_add_bad_b : stepFaults (base 0x10#9 [0xA0#8, 0#8, 8#8] 0#8 0#8 0#8 0xF4#8)
    .invalidRegister 8 = true := by decide
/-- T16. -/
theorem test_mul_wraps : stepTo (base 0x10#9 [0xA2#8, 0#8, 1#8] 44#8 100#8 0#8 0xF4#8)
    (fun t => decide (t.getReg 0 = 48#8 ∧ t.getReg 1 = 100#8 ∧ t.pc = 0x13#9)) = true := by decide
/-- T18. -/
theorem test_mul_max : stepTo (base 0x10#9 [0xA2#8, 0#8, 0#8] 255#8 0#8 0#8 0xF4#8)
    (fun t => decide (t.getReg 0 = 1#8)) = true := by decide
/-- T32, T33. -/
theorem test_cmp_less_unsigned : stepTo (withFlags flagsG (base 0x10#9 [0xA7#8, 0#8, 1#8] 0#8 255#8 0#8 0xF4#8))
    (fun t => decide (t.flByte = 0x04#8 ∧ t.pc = 0x13#9)) = true := by decide
/-- T31, T36. -/
theorem test_cmp_greater_unsigned : stepTo (withFlags flagsE (base 0x10#9 [0xA7#8, 0#8, 1#8] 128#8 127#8 0#8 0xF4#8))
    (fun t => decide (t.flByte = 0x02#8)) = true := by decide
/-- T38. -/
theorem test_jmp_self : stepTo (base 0x10#9 [0x54#8, 0#8] 0x10#8 0#8 0#8 0xF4#8)
    (fun t => decide (t.pc = 0x10#9)) = true := by decide
/-- T39. -/
theorem test_jeq_taken : stepTo (withFlags flagsE (base 0x10#9 [0x55#8, 2#8] 0#8 0#8 0x20#8 0xF4#8))
    (fun t => decide (t.pc = 0x20#9 ∧ t.fl = flagsE)) = true := by decide
/-- T39h. -/
theorem test_jeq_bad_register_not_taken : stepFaults (withFlags flagsG (base 0x10#9 [0x55#8, 8#8] 0#8 0#8 0#8 0xF4#8))
    .invalidRegister 8 = true := by decide
/-- T39d. -/
theorem test_jne_falls_through : stepTo (withFlags flagsE (base 0x10#9 [0x56#8, 2#8] 0#8 0#8 0x20#8 0xF4#8))
    (fun t => decide (t.pc = 0x12#9)) = true := by decide
/-- T39g. -/
theorem test_jne_before_any_cmp : stepTo (base 0x10#9 [0x56#8, 2#8] 0#8 0#8 0x20#8 0xF4#8)
    (fun t => decide (t.pc = 0x20#9)) = true := by decide
/-- T47. -/
theorem test_push_r7 : stepTo (base 0x10#9 [0x45#8, 7#8] 0#8 0#8 0#8 0xF4#8)
    (fun t => decide (t.sp = 0xF3#8 ∧ t.mem.read 0xF3 = 0xF3#8 ∧ t.pc = 0x12#9)) = true := by decide
/-- T44. -/
theorem test_push_at_zero : stepFaults (base 0x10#9 [0x45#8, 0#8] 0#8 0#8 0#8 0#8)
    .outOfBounds (-1) = true := by decide
/-- T49. -/
theorem test_pop_r7 : stepTo (withCell 0xF3 0x40#8 (base 0x10#9 [0x46#8, 7#8] 0#8 0#8 0#8 0xF3#8))
    (fun t => decide (t.sp = 0x41#8 ∧ t.mem.read 0xF3 = 0x40#8 ∧ t.pc = 0x12#9)) = true := by decide
/-- T50. -/
theorem test_pop_r7_to_256 : stepFaults (withCell 0xF3 0xFF#8 (base 0x10#9 [0x46#8, 7#8] 0#8 0#8 0#8 0xF3#8))
    .outOfBounds 256 = true := by decide
/-- T54. -/
theorem test_call_at_253 : stepTo (base 0xFD#9 [0x50#8, 0#8] 0x20#8 0#8 0#8 0xF4#8)
    (fun t => decide (t.mem.read 0xF3 = 0xFF#8 ∧ t.sp = 0xF3#8 ∧ t.pc = 0x20#9)) = true := by decide
/-- T55. -/
theorem test_call_at_254 : stepFaults (base 0xFE#9 [0x50#8, 0#8] 0#8 0#8 0#8 0xF4#8)
    .outOfBounds 256 = true := by decide
/-- T53. -/
theorem test_ret : stepTo (withCell 0xF3 8#8 (base 0x11#9 [0x11#8] 0#8 0#8 0#8 0xF3#8))
    (fun t => decide (t.pc = 8#9 ∧ t.sp = 0xF4#8)) = true := by decide
/-- T57. -/
theorem test_ret_at_255 : stepFaults (withCell 0xFF 0x30#8 (base 0x10#9 [0x11#8] 0#8 0#8 0#8 0xFF#8))
    .outOfBounds 256 = true := by decide
/-- T60. -/
theorem test_empty_image : stepFaults (State.reset)
    .illegalInstruction 0 = true := by decide
/-- T66, its second step. -/
theorem test_fetch_at_256 : stepFaults (base 256#9 [] 253#8 7#8 0#8 0xF4#8)
    .outOfBounds 256 = true := by decide
/-- T76. -/
theorem test_init_too_long : nextOf (init (List.replicate 257 1#8)) = none := by
  rw [init, if_neg (by rw [List.length_replicate]; decide)]; rfl

/-! ### Witnesses: concrete values that meet the hypotheses of each statement, clause by clause -/

theorem witness_InitLoadsImageFromZero :
    (List.replicate 256 1#8 : List Byte).length ≤ 256 ∧ 255 < (List.replicate 256 1#8 : List Byte).length ∧
    ([] : List Byte).length ≤ 0 := by
  rw [List.length_replicate]; decide
theorem witness_InitRefusesLongImage :
    256 < (List.replicate 257 1#8 : List Byte).length := by
  rw [List.length_replicate]; decide
theorem witness_OpcodeByteSelectsOneRow :
    opcodeMap.Distinct ∧ opcodeMap.lookup 0x11#8 = some .ret ∧
    (decodeWith opcodeMap (0x11#8 :: [])).toOption = some (.ret, []) ∧
    (fetchWith opcodeMap (base 255#9 [0x11#8] 0#8 0#8 0#8 0xF4#8)).toOption = some .ret := by decide
theorem witness_DecodeOfEncode :
    OpcodeMap.Distinct { opcodeMap with add := 0xA2#8, mul := 0xA0#8 } ∧ opcodeMap.Distinct := by decide
theorem witness_DecodedBytesAreTheEncoding :
    (decodeWith opcodeMap [0x82#8, 255#8, 255#8, 1#8]).toOption = some (.ldi 255#8 255#8, [1#8]) := by decide
theorem witness_StepRunsDecodedInstruction :
    (base 253#9 [0x82#8, 7#8, 9#8] 0#8 0#8 0#8 0xF4#8).run = .running ∧
    (decode (bytesAtPc (base 253#9 [0x82#8, 7#8, 9#8] 0#8 0#8 0#8 0xF4#8))).toOption = some (.ldi 7#8 9#8, []) := by decide
theorem witness_PlacedInstructionRuns :
    (253#9).toNat + (Instr.ldi 7#8 9#8).length ≤ 256 ∧ (255#9).toNat + Instr.hlt.length ≤ 256 := by decide
theorem witness_StepExistsExactlyWhileRunning :
    (nextOf (step State.reset)).isSome = true ∧ nextOf (step State.reset.halt) = none ∧ State.reset.run = .running := by decide
theorem witness_RunStateTransitions :
    (nextOf (init [1#8])).isSome = true ∧ State.reset.halt.run ≠ .running ∧
    (raise (.outOfBounds 256) State.reset).run ≠ .running ∧
    stepTo (base 0#9 [0x01#8] 0#8 0#8 0#8 0xF4#8) (fun t => decide (t.run = .halted)) = true ∧
    stepTo (base 0#9 [0x47#8, 0#8] 0#8 0#8 0#8 0xF4#8) (fun t => decide (t.run = .running)) = true ∧
    stepTo State.reset (fun t => decide (t.run = .faulted)) = true := by decide
theorem witness_FaultsArePrecise :
    stepTo State.reset (fun t => decide (t.run = .faulted)) = true ∧
    stepTo (base 256#9 [] 0#8 0#8 0#8 0xF4#8) (fun t => decide (t.run = .faulted)) = true := by decide
theorem witness_InvalidRegisterOperandRaises :
    8 ≤ (8#8 : Byte).toNat ∧ 8 ≤ (255#8 : Byte).toNat := by decide
theorem witness_IllFormedExactlyInvalidRegister :
    State.reset.run = .running ∧ (Instr.jeq 8#8).wellFormed = false ∧ (Instr.jeq 7#8).wellFormed = true := by decide
theorem witness_IllegalOpcodeRaises :
    (base 255#9 [0xFF#8] 0#8 0#8 0#8 0xF4#8).run = .running ∧ (255#9 : Pc).toNat ≤ 255 ∧
    opcodeMap.lookup ((base 255#9 [0xFF#8] 0#8 0#8 0#8 0xF4#8).mem.read 255) = none := by decide
theorem witness_StepFaultsExactlyAsListed :
    State.reset.run = .running ∧ (256#9 : Pc).toNat ≤ 256 ∧
    listedFault (base 256#9 [] 0#8 0#8 0#8 0xF4#8) = some (.outOfBounds, 256) ∧
    listedFault (base 255#9 [0xFF#8] 0#8 0#8 0#8 0xF4#8) = some (.illegalInstruction, 255) ∧
    listedFault (base 255#9 [0x50#8] 0#8 0#8 0#8 0#8) = some (.outOfBounds, 256) ∧
    listedFault (base 254#9 [0x82#8, 8#8] 0#8 0#8 0#8 0xF4#8) = some (.outOfBounds, 256) ∧
    listedFault (base 253#9 [0xA0#8, 8#8, 9#8] 0#8 0#8 0#8 0xF4#8) = some (.invalidRegister, 8) ∧
    listedFault (base 253#9 [0xA0#8, 0#8, 9#8] 0#8 0#8 0#8 0xF4#8) = some (.invalidRegister, 9) ∧
    listedFault (base 254#9 [0x50#8, 0#8] 0#8 0#8 0#8 0#8) = some (.outOfBounds, 256) ∧
    listedFault (base 253#9 [0x50#8, 0#8] 0#8 0#8 0#8 0#8) = some (.outOfBounds, -1) ∧
    listedFault (base 255#9 [0x11#8] 0#8 0#8 0#8 255#8) = some (.outOfBounds, 256) ∧
    listedFault (withCell 0xF3 255#8 (base 0#9 [0x46#8, 7#8] 0#8 0#8 0#8 0xF3#8)) = some (.outOfBounds, 256) ∧
    listedFault (base 254#9 [0x46#8, 7#8] 0#8 0#8 0#8 254#8) = none := by decide
theorem witness_MemReadChecksBounds :
    ((-1 : Int) < 0 ∨ 256 ≤ (-1 : Int)) ∧ ((256 : Int) < 0 ∨ 256 ≤ (256 : Int)) ∧
    (0 ≤ (0 : Int) ∧ (0 : Int) < 256) ∧ (0 ≤ (255 : Int) ∧ (255 : Int) < 256) := by decide
theorem witness_MemWriteChangesOneCell :
    ((-1 : Int) < 0 ∨ 256 ≤ (-1 : Int)) ∧ ((256 : Int) < 0 ∨ 256 ≤ (256 : Int)) ∧
    (0 ≤ (0 : Int) ∧ (0 : Int) < 256) ∧ (0 ≤ (255 : Int) ∧ (255 : Int) < 256) := by decide
theorem witness_StoreIsSeenByNextFetch :
    (base 0#9 [0x45#8, 0#8] 0x11#8 0#8 0#8 1#8).run = .running ∧ (base 0#9 [0x45#8, 0#8] 0x11#8 0#8 0#8 1#8).sp ≠ 0#8 ∧
    (fetch (base 0#9 [0x45#8, 0#8] 0x11#8 0#8 0#8 1#8)).toOption = some (.push (regByte 0)) ∧
    stepTo (base 0#9 [0x45#8, 0#8] 0x11#8 0#8 0#8 1#8) (fun t => decide (t.getReg 0 = 0x11#8 ∧ t.sp = 0#8 ∧ t.run = .running)) = true ∧
    opcodeMap.lookup ((base 0#9 [0x45#8, 1#8] 0#8 0#8 0#8 1#8).getReg 1) = none := by decide
theorem witness_HltHalts :
    (base 255#9 [0x01#8] 0#8 0#8 0#8 0xF4#8).run = .running ∧ (255#9 : Pc).toNat ≤ 255 ∧
    (base 255#9 [0x01#8] 0#8 0#8 0#8 0xF4#8).mem.read 255 = 0x01#8 := by decide
theorem witness_LdiLoadsImmediate :
    8 ≤ (8#8 : Byte).toNat ∧ (base 253#9 [] 0#8 0#8 0#8 0xF4#8).run = .running ∧
    (base 253#9 [] 0#8 0#8 0#8 0xF4#8).pc = 253#9 ∧
    (base 254#9 [0x82#8] 0#8 0#8 0#8 0xF4#8).run = .running ∧ (254#9 : Pc).toNat ≤ 255 ∧
    (base 254#9 [0x82#8] 0#8 0#8 0#8 0xF4#8).mem.read 254 = 0x82#8 ∧ 256 < (254#9 : Pc).toNat + 3 ∧
    (base 255#9 [0x82#8] 0#8 0#8 0#8 0xF4#8).run = .running ∧ (255#9 : Pc).toNat ≤ 255 ∧
    (base 255#9 [0x82#8] 0#8 0#8 0#8 0xF4#8).mem.read 255 = 0x82#8 ∧ 256 < (255#9 : Pc).toNat + 3 := by decide
theorem witness_PrnEmitsRegister :
    8 ≤ (8#8 : Byte).toNat ∧ (base 255#9 [0x47#8] 0#8 0#8 0#8 0xF4#8).run = .running ∧ (255#9 : Pc).toNat ≤ 255 ∧
    (base 255#9 [0x47#8] 0#8 0#8 0#8 0xF4#8).mem.read 255 = 0x47#8 ∧ 256 < (255#9 : Pc).toNat + 2 := by decide
theorem witness_AddWrapsModulo256 :
    8 ≤ (8#8 : Byte).toNat ∧ (base 254#9 [0xA0#8] 0#8 0#8 0#8 0xF4#8).run = .running ∧ (254#9 : Pc).toNat ≤ 255 ∧
    (base 254#9 [0xA0#8] 0#8 0#8 0#8 0xF4#8).mem.read 254 = 0xA0#8 ∧ 256 < (254#9 : Pc).toNat + 3 ∧
    (base 255#9 [0xA0#8] 0#8 0#8 0#8 0xF4#8).run = .running ∧ (255#9 : Pc).toNat ≤ 255 ∧
    (base 255#9 [0xA0#8] 0#8 0#8 0#8 0xF4#8).mem.read 255 = 0xA0#8 ∧ 256 < (255#9 : Pc).toNat + 3 := by decide
theorem witness_MulWrapsModulo256 :
    8 ≤ (8#8 : Byte).toNat ∧ (base 254#9 [0xA2#8] 0#8 0#8 0#8 0xF4#8).run = .running ∧ (254#9 : Pc).toNat ≤ 255 ∧
    (base 254#9 [0xA2#8] 0#8 0#8 0#8 0xF4#8).mem.read 254 = 0xA2#8 ∧ 256 < (254#9 : Pc).toNat + 3 ∧
    (base 255#9 [0xA2#8] 0#8 0#8 0#8 0xF4#8).run = .running ∧ (255#9 : Pc).toNat ≤ 255 ∧
    (base 255#9 [0xA2#8] 0#8 0#8 0#8 0xF4#8).mem.read 255 = 0xA2#8 ∧ 256 < (255#9 : Pc).toNat + 3 := by decide
theorem witness_CmpSetsExactlyOneFlag :
    8 ≤ (8#8 : Byte).toNat ∧ (base 254#9 [0xA7#8] 0#8 0#8 0#8 0xF4#8).run = .running ∧ (254#9 : Pc).toNat ≤ 255 ∧
    (base 254#9 [0xA7#8] 0#8 0#8 0#8 0xF4#8).mem.read 254 = 0xA7#8 ∧ 256 < (254#9 : Pc).toNat + 3 ∧
    (base 255#9 [0xA7#8] 0#8 0#8 0#8 0xF4#8).run = .running ∧ (255#9 : Pc).toNat ≤ 255 ∧
    (base 255#9 [0xA7#8] 0#8 0#8 0#8 0xF4#8).mem.read 255 = 0xA7#8 ∧ 256 < (255#9 : Pc).toNat + 3 ∧
    (let s := base 0#9 [] 0#8 255#8 255#8 0xF4#8
     (s.getReg 1).toNat = (s.getReg 2).toNat ∧ (s.getReg 1).toNat > (s.getReg 0).toNat ∧
     (s.getReg 0).toNat < (s.getReg 1).toNat) := by decide
theorem witness_JmpLoadsPc :
    8 ≤ (8#8 : Byte).toNat ∧ (base 255#9 [0x54#8] 0#8 0#8 0#8 0xF4#8).run = .running ∧ (255#9 : Pc).toNat ≤ 255 ∧
    (base 255#9 [0x54#8] 0#8 0#8 0#8 0xF4#8).mem.read 255 = 0x54#8 ∧ 256 < (255#9 : Pc).toNat + 2 := by decide
theorem witness_JeqJumpsWhenEqual :
    8 ≤ (8#8 : Byte).toNat ∧ (base 255#9 [0x55#8] 0#8 0#8 0#8 0xF4#8).run = .running ∧ (255#9 : Pc).toNat ≤ 255 ∧
    (base 255#9 [0x55#8] 0#8 0#8 0#8 0xF4#8).mem.read 255 = 0x55#8 ∧ 256 < (255#9 : Pc).toNat + 2 ∧
    (withFlags flagsE State.reset).fl.e = true ∧ State.reset.fl.e = false ∧
    (base 254#9 [] 0#8 0#8 0#8 0xF4#8).pc = 254#9 ∧ (base 254#9 [] 0#8 0#8 0#8 0xF4#8).fl.e = false ∧
    (base 254#9 [] 0#8 0#8 0#8 0xF4#8).run = .running := by decide
theorem witness_JneJumpsWhenNotEqual :
    8 ≤ (8#8 : Byte).toNat ∧ (base 255#9 [0x56#8] 0#8 0#8 0#8 0xF4#8).run = .running ∧ (255#9 : Pc).toNat ≤ 255 ∧
    (base 255#9 [0x56#8] 0#8 0#8 0#8 0xF4#8).mem.read 255 = 0x56#8 ∧ 256 < (255#9 : Pc).toNat + 2 ∧
    (withFlags flagsE State.reset).fl.e = true ∧ State.reset.fl.e = false := by decide
theorem witness_PushStoresBelowStackPointer :
    8 ≤ (8#8 : Byte).toNat ∧ (base 255#9 [0x45#8] 0#8 0#8 0#8 0xF4#8).run = .running ∧ (255#9 : Pc).toNat ≤ 255 ∧
    (base 255#9 [0x45#8] 0#8 0#8 0#8 0xF4#8).mem.read 255 = 0x45#8 ∧ 256 < (255#9 : Pc).toNat + 2 ∧
    (base 0#9 [] 0#8 0#8 0#8 1#8).sp ≠ 0#8 ∧ (base 0#9 [] 0#8 0#8 0#8 255#8).sp ≠ 0#8 ∧
    (base 0#9 [] 0#8 0#8 0#8 0#8).sp = 0#8 := by decide
theorem witness_PopLoadsFromStackPointer :
    8 ≤ (8#8 : Byte).toNat ∧ (base 255#9 [0x46#8] 0#8 0#8 0#8 0xF4#8).run = .running ∧ (255#9 : Pc).toNat ≤ 255 ∧
    (base 255#9 [0x46#8] 0#8 0#8 0#8 0xF4#8).mem.read 255 = 0x46#8 ∧ 256 < (255#9 : Pc).toNat + 2 ∧
    (0 : RegIdx) ≠ 7 ∧ (6 : RegIdx) ≠ 7 ∧
    (base 0#9 [] 0#8 0#8 0#8 254#8).sp ≠ 255#8 ∧ (base 0#9 [] 0#8 0#8 0#8 255#8).sp = 255#8 ∧
    (let s := withCell 255 254#8 (base 0#9 [] 0#8 0#8 0#8 255#8)
     s.mem.read s.sp.toNat ≠ 255#8) ∧
    (let s := withCell 255 255#8 (base 0#9 [] 0#8 0#8 0#8 255#8)
     s.mem.read s.sp.toNat = 255#8) := by decide
theorem witness_CallPushesReturnAddress :
    8 ≤ (8#8 : Byte).toNat ∧ (base 255#9 [0x50#8] 0#8 0#8 0#8 0xF4#8).run = .running ∧ (255#9 : Pc).toNat ≤ 255 ∧
    (base 255#9 [0x50#8] 0#8 0#8 0#8 0xF4#8).mem.read 255 = 0x50#8 ∧ 256 < (255#9 : Pc).toNat + 2 ∧
    (253#9 : Pc).toNat ≤ 253 ∧ 254 ≤ (254#9 : Pc).toNat ∧ (base 253#9 [] 0#8 0#8 0#8 1#8).sp ≠ 0#8 ∧
    (base 253#9 [] 0#8 0#8 0#8 0#8).sp = 0#8 := by decide
theorem witness_RetPopsPc :
    (base 0#9 [] 0#8 0#8 0#8 254#8).sp ≠ 255#8 ∧ (base 0#9 [] 0#8 0#8 0#8 255#8).sp = 255#8 ∧
    (base 255#9 [0x11#8] 0#8 0#8 0#8 0xF4#8).run = .running ∧ (255#9 : Pc).toNat ≤ 255 ∧
    (base 255#9 [0x11#8] 0#8 0#8 0#8 0xF4#8).mem.read 255 = 0x11#8 := by decide
theorem witness_CompareThenBranch :
    (withFlags flagsE State.reset).fl = flagsE ∧ (Instr.ldi 0#8 0#8).op ≠ .cmp ∧
    (nextOf (exec (.ldi 0#8 0#8) State.reset)).isSome = true := by decide
theorem witness_PushPopAndCallRet :
    (base 253#9 [] 0#8 0#8 0#8 1#8).sp ≠ 0#8 ∧ (base 253#9 [] 0#8 0#8 0#8 1#8).pc.toNat ≤ 253 ∧
    (nextOf (exec (.call 0#8) (base 253#9 [] 0#8 0#8 0#8 1#8))).any
      (fun t => decide (t.sp = t.sp ∧ t.mem.read t.sp.toNat = 255#8)) = true := by decide
theorem witness_PushesCompleteUntilStackPointerZero :
    State.reset.run = .running ∧ 244 ≤ State.reset.sp.toNat ∧ 0 ≤ (base 0#9 [] 0#8 0#8 0#8 0#8).sp.toNat := by decide
theorem witness_AnyCellThroughStackPointer :
    (6 : RegIdx) ≠ 7 ∧ (254#8 : Byte) ≠ 255#8 ∧ (0#8 : Byte) ≠ 255#8 := by decide
theorem witness_ReturnAddressesAreData :
    (base 253#9 [] 0#8 0#8 0#8 1#8).sp ≠ 0#8 ∧ (base 253#9 [] 0#8 0#8 0#8 1#8).pc.toNat ≤ 253 ∧ (6 : RegIdx) ≠ 7 := by decide
theorem witness_OutputOnlyGrowsByPrn :
    (base 0#9 [0x47#8, 7#8] 0#8 0#8 0#8 0xF4#8).run = .running ∧ (fetch (base 0#9 [0x47#8, 7#8] 0#8 0#8 0#8 0xF4#8)).toOption = some (.prn (regByte 7)) ∧
    (nextOf (step (base 0#9 [0x47#8, 7#8] 0#8 0#8 0#8 0xF4#8))).isSome = true := by decide
theorem witness_OnlyCmpWritesFlags :
    stepTo (base 0#9 [0xA7#8, 0#8, 0#8] 0#8 0#8 0#8 0xF4#8) (fun t => decide (t.fl = flagsE)) = true ∧
    stepTo State.reset (fun t => decide (t.fl = State.reset.fl)) = true := by decide
theorem witness_GreaterAndLessAreNeverRead :
    flagsG.e = State.reset.fl.e ∧ flagsL.e = State.reset.fl.e ∧ (nextOf (step (base 0#9 [0x47#8, 7#8] 0#8 0#8 0#8 0xF4#8))).isSome = true := by decide
theorem witness_OnlyPushAndCallStore :
    stepTo (base 9#9 [0x50#8, 0#8] 0#8 0#8 0#8 1#8)
      (fun t => decide (t.mem.read 0 ≠ (base 9#9 [0x50#8, 0#8] 0#8 0#8 0#8 1#8).mem.read 0)) = true ∧
    stepTo (base 9#9 [0x45#8, 0#8] 5#8 0#8 0#8 255#8)
      (fun t => decide (t.mem.read 254 ≠ (base 9#9 [0x45#8, 0#8] 5#8 0#8 0#8 255#8).mem.read 254)) = true := by decide
theorem witness_RegisterWritersAreListed :
    stepTo (base 0#9 [0x82#8, 6#8, 9#8] 0#8 0#8 0#8 0xF4#8) (fun t => decide (t.getReg 6 ≠ State.reset.getReg 6)) = true ∧
    stepTo (base 0#9 [0x11#8] 0#8 0#8 0#8 0xF4#8) (fun t => decide (t.getReg 7 ≠ State.reset.getReg 7)) = true := by decide
theorem witness_PcLeavesMemoryOnlyByFallThrough :
    (254#9 : Pc).toNat ≤ 255 ∧ stepTo (base 254#9 [0x47#8, 0#8] 0#8 0#8 0#8 0xF4#8) (fun t => decide (255 < t.pc.toNat)) = true ∧
    stepTo (base 253#9 [0xA7#8, 0#8, 0#8] 0#8 0#8 0#8 0xF4#8) (fun t => decide (255 < t.pc.toNat)) = true ∧
    (base 256#9 [] 0#8 0#8 0#8 0xF4#8).run = .running ∧ (base 256#9 [] 0#8 0#8 0#8 0xF4#8).pc = 256#9 := by decide
theorem witness_EveryStepKeepsInvariant :
    Inv (base 0#9 [0x47#8, 7#8] 0#8 0#8 0#8 0xF4#8) ∧ (nextOf (step (base 0#9 [0x47#8, 7#8] 0#8 0#8 0#8 0xF4#8))).isSome = true :=
  ⟨⟨by decide, by decide, by decide, by decide, fun _ h => nomatch h⟩, by decide⟩
theorem witness_InvariantHoldsAfterInit : (nextOf (init [0x01#8])).isSome = true := by decide
theorem witness_FlagsByteIsLGE :
    flagLayout.Distinct ∧ FlagLayout.Distinct { e := 7, g := 0, l := 3 } ∧ 4 ≠ (7 : Fin 8).val ∧ 4 ≠ (0 : Fin 8).val ∧
    4 ≠ (3 : Fin 8).val ∧ 3 ≤ 3 ∧ 3 ≤ 7 := by decide
theorem test_flags_layout_not_distinct : ¬ FlagLayout.Distinct { e := 0, g := 0, l := 0 } := by decide
theorem witness_NumeralIsDecimal : (decimalNumeral 0#8).head? = some '0' ∧ decimalNumeral 244#8 = ['2', '4', '4'] := by decide
theorem witness_OperandPastEndFaults : (base 255#9 [0x50#8] 0#8 0#8 0#8 0xF4#8).run = .running := by decide

end Sys2Proof.Tests
end

section
/-! PROOFS. The run state: how a step sets `RUN` (R18). -/

namespace Sys2Proof.Machine

/-- An instruction other than HLT either raises or leaves `RUN` as it was. -/
theorem exec_raise_or_same_run {i : Instr} {s t : State} (hi : i ≠ .hlt) (h : exec i s = .next t) :
    (∃ e, t = raise e s) ∨ t.run = s.run := by
  revert hi
  refine exec_elim (P := fun i t => i ≠ .hlt → (∃ e, t = raise e s) ∨ t.run = s.run) ?raise ?hlt
    ?ldi ?prn ?add ?mul ?cmp ?jmp ?jeq ?jne ?push ?pop ?call ?ret h
  case raise => exact fun _ e _ _ => .inl ⟨e, rfl⟩
  case hlt => exact fun hne => absurd rfl hne
  case jeq | jne =>
    intro r _
    right
    split <;> rfl
  all_goals (intros; exact .inr rfl)

/-- What a step does to `RUN`: HLT halts, a raise faults, everything else leaves the core Running. -/
theorem step_run_cases {s t : State} (h : step s = .next t) :
    (fetch s = .ok .hlt ∧ t = s.halt) ∨
      (fetch s ≠ .ok .hlt ∧ ((∃ e, t = raise e s) ∨ t.run = .running)) := by
  obtain ⟨hr, ⟨e, hf, rfl⟩ | ⟨i, hf, hx⟩⟩ := step_cases h
  · exact .inr ⟨by simp [hf], .inl ⟨e, rfl⟩⟩
  · by_cases hi : i = .hlt
    · subst hi
      cases hx
      exact .inl ⟨hf, rfl⟩
    · exact .inr ⟨by simpa [hf] using hi, hr ▸ exec_raise_or_same_run hi hx⟩

/-- A step from Running halts exactly when it fetched HLT. -/
theorem step_halted_iff {s t : State} (h : step s = .next t) : t.run = .halted ↔ fetch s = .ok .hlt := by
  obtain ⟨hf, rfl⟩ | ⟨hf, ⟨e, rfl⟩ | ht⟩ := step_run_cases h
  · simp [hf]
  · simp [hf]
  · simp [hf, ht]

/-- A raise is what `Faults` describes. -/
theorem faults_raise (s : State) (e : Exn) : Faults s e.cause e.info (.next (raise e s)) := rfl

/-- A fault leaves `RUN` Faulted. -/
theorem Faults.run_eq {s t : State} {cause : Cause} {info : Int} (h : Faults s cause info (.next t)) :
    t.run = .faulted := by
  cases h
  rfl

/-- A step from Running faults exactly when it raised. -/
theorem step_faulted_iff {s t : State} (h : step s = .next t) :
    t.run = .faulted ↔ ∃ cause info, Faults s cause info (step s) := by
  rw [h]
  constructor
  · intro ht
    obtain ⟨-, rfl⟩ | ⟨-, ⟨e, rfl⟩ | hr⟩ := step_run_cases h
    · simp at ht
    · exact ⟨_, _, faults_raise s e⟩
    · simp [ht] at hr
  · rintro ⟨cause, info, hf⟩
    exact hf.run_eq

theorem RunState.eq_running_iff (r : RunState) : r = .running ↔ r ≠ .halted ∧ r ≠ .faulted := by
  cases r <;> simp

/-- From Halted and from Faulted no step leads on (R71). -/
theorem noStep_of_not_running {s : State} (hr : s.run ≠ .running) : NoStep s :=
  fun _ h => hr (step_cases h).1

/-- An accepted image gives the reset state with the image placed in memory (R141). -/
theorem init_inv {image : List Byte} {t : State} (h : init image = .next t) :
    image.length ≤ Config.memSize ∧
      t = { State.reset with mem := Memory.place Config.loadBase image State.reset.mem } := by
  unfold init at h
  split at h
  · next hlen => exact ⟨hlen, by simpa using h.symm⟩
  · cases h

/-- Settles O11: by the three ways a step can set `RUN` (`step_run_cases`). -/
theorem runStateTransitions : Obligations.RunStateTransitions := by
  refine ⟨rfl, fun image t h => ?_, fun s hr => noStep_of_not_running hr, fun s t _ h => ?_⟩
  · obtain ⟨-, rfl⟩ := init_inv h
    rfl
  · refine ⟨step_halted_iff h, step_faulted_iff h, ?_⟩
    rw [RunState.eq_running_iff, Ne, Ne, step_halted_iff h, step_faulted_iff h]

end Sys2Proof.Machine
end

section
/-! PROOFS. The output stream: what a step appends to `OUT`, and that it does not read it (R20). -/

namespace Sys2Proof.Machine

/-- The fetch reads memory and `pc` alone. -/
theorem fetchWith_congr (m : OpcodeMap) {s u : State} (hmem : u.mem = s.mem) (hpc : u.pc = s.pc) :
    fetchWith m u = fetchWith m s := by
  have hbyte : fetchByte u = fetchByte s := funext fun k => by simp only [fetchByte, memRead, hmem, hpc]
  rw [fetchWith, fetchWith, hbyte]

/-- Two states that agree in memory, `pc` and `RUN` fetch alike, so they step to related states when raises and
the instruction fetched do. -/
theorem step_elim_pair {P : State → State → Prop} {s u t : State}
    (hmem : u.mem = s.mem) (hpc : u.pc = s.pc) (hrun : u.run = s.run)
    (hraise : ∀ e, P (raise e s) (raise e u))
    (hexec : ∀ i, fetch s = .ok i → exec i s = .next t → ∃ t', exec i u = .next t' ∧ P t t')
    (h : step s = .next t) : ∃ t', step u = .next t' ∧ P t t' := by
  have hfu : fetch u = fetch s := fetchWith_congr opcodeMap hmem hpc
  obtain ⟨hr, ⟨e, hf, rfl⟩ | ⟨i, hf, hx⟩⟩ := step_cases h
  · exact ⟨_, step_of_fetch_error (hrun.trans hr) (hfu.trans hf), hraise e⟩
  · rw [step_of_fetch (hrun.trans hr) (hfu.trans hf)]
    exact hexec i hf hx

/-- `t` has `added` appended to the `OUT` of `s`, and `t'` is `t` with `added` appended to `o` as its `OUT`. -/
def AppendsAlike (s : State) (o added : List Byte) (t t' : State) : Prop :=
  t.out = s.out ++ added ∧ t' = { t with out := o ++ added }

theorem appendsAlike_nil {s t : State} {o : List Byte} (h : t.out = s.out) :
    AppendsAlike s o [] t { t with out := o } := by
  simp [AppendsAlike, h]

/-- What R20 allows after the fetch answered `fetched`: nothing is appended, or the fetch gave a PRN and its
register's byte is, whichever of `s.out` and `o` stood there. -/
def OutGrowsAlike (fetched : Except Exn Instr) (s : State) (o : List Byte) (t t' : State) : Prop :=
  AppendsAlike s o [] t t' ∨
    ∃ r : RegIdx, fetched = .ok (.prn (regByte r)) ∧ AppendsAlike s o [s.getReg r] t t'

theorem outGrowsAlike_of_same {fetched : Except Exn Instr} {s t : State} {o : List Byte} (h : t.out = s.out) :
    OutGrowsAlike fetched s o t { t with out := o } := .inl (appendsAlike_nil h)

/-- An instruction appends the same whatever `OUT` holds, and only a PRN appends. -/
theorem exec_outGrowsAlike {i : Instr} {s t : State} (o : List Byte) (h : exec i s = .next t) :
    ∃ t', exec i { s with out := o } = .next t' ∧ OutGrowsAlike (.ok i) s o t t' := by
  refine exec_elim_pair (s := s) (u := { s with out := o }) (P := fun i => OutGrowsAlike (.ok i) s o)
    rfl rfl rfl ?raise ?hlt ?ldi ?prn ?add ?mul ?cmp ?jmp ?jeq ?jne ?push ?pop ?call ?ret h
  case prn => exact fun r => .inr ⟨r, rfl, rfl, rfl⟩
  case jeq | jne =>
    intro r
    dsimp only
    split <;> exact outGrowsAlike_of_same rfl
  all_goals (intros; exact outGrowsAlike_of_same rfl)

/-- The same of a step, whose fetch does not see `OUT` and whose raise leaves it as it was. -/
theorem step_outGrowsAlike {s t : State} (o : List Byte) (h : step s = .next t) :
    ∃ t', step { s with out := o } = .next t' ∧ OutGrowsAlike (fetch s) s o t t' := by
  refine step_elim_pair (s := s) (u := { s with out := o }) (P := OutGrowsAlike (fetch s) s o)
    rfl rfl rfl (fun e => outGrowsAlike_of_same rfl) (fun i hf hx => ?_) h
  rw [hf]
  exact exec_outGrowsAlike o hx

/-- Settles O39: by running a step beside the same step with another `OUT` (`step_outGrowsAlike`). -/
theorem outputOnlyGrowsByPrn : Obligations.OutputOnlyGrowsByPrn := by
  refine ⟨rfl, fun s t h => ?_, fun s r hr hf => ?_, fun s t o h => ?_⟩
  · obtain ⟨-, -, ⟨hout, -⟩ | ⟨r, hf, hout, -⟩⟩ := step_outGrowsAlike s.out h
    · exact .inl (by simpa using hout)
    · exact .inr ⟨r, hf, hout⟩
  · exact ⟨_, (step_of_fetch hr hf).trans (execPrn_reg s r), rfl⟩
  · obtain ⟨t', hstep, ⟨hout, rfl⟩ | ⟨r, -, hout, rfl⟩⟩ := step_outGrowsAlike o h
    · exact ⟨_, hout, hstep⟩
    · exact ⟨_, hout, hstep⟩

end Sys2Proof.Machine
end

section
/-! PROOFS. Memory: what a write changes (R32). -/

namespace Sys2Proof.Machine

/-- A write to one cell of memory leaves every other cell as it read. -/
theorem sameMemExcept_write (s : State) (a : Nat) (v : Byte) :
    SameMemExcept [a] s { s with mem := s.mem.write a v } :=
  fun _ hb => Memory.read_write_of_ne _ _ (List.ne_of_not_mem_cons hb)

/-- Settles O18: by the two answers of `memWrite`, outside its bounds and inside. -/
theorem memWriteChangesOneCell : Obligations.MemWriteChangesOneCell := by
  refine fun s addr v => ⟨fun hout => ?outside, fun h0 h1 => ?inside⟩
  case outside =>
    rw [memWrite_error s v hout]
    exact ⟨rfl, faults_raise s _⟩
  case inside =>
    exact ⟨_, memWrite_ok s v h0 h1, Memory.read_write_self _ _ _, sameMemExcept_write s _ v, rfl⟩

end Sys2Proof.Machine
end

section
/-! PROOFS. Decoding: the opcode byte and the row it selects (R57). -/

namespace Sys2Proof

/-- With distinct values, a byte selects a row exactly when it is that row's byte. -/
theorem OpcodeMap.lookup_eq_some_iff {m : OpcodeMap} (hm : m.Distinct) {b : Byte} {op : Op} :
    m.lookup b = some op ↔ b = m.code op := by
  constructor
  · exact fun h => (code_of_lookup h).symm
  · rintro rfl
    exact lookup_code hm op

/-- No two bytes select one row, whether or not the values are distinct. -/
theorem OpcodeMap.eq_of_lookup_eq_some {m : OpcodeMap} {b c : Byte} {op : Op} (hb : m.lookup b = some op)
    (hc : m.lookup c = some op) : b = c :=
  (code_of_lookup hb).symm.trans (code_of_lookup hc)

/-- An instruction decoded from a list belongs to the row that the list's first byte selects. -/
theorem lookup_head_of_decodeWith {m : OpcodeMap} {b : Byte} {bytes rest : List Byte} {i : Instr}
    (h : decodeWith m (b :: bytes) = .ok (i, rest)) : m.lookup b = some i.op := by
  obtain ⟨opcode, h0, hop, -⟩ := decodeFrom_inv (decodeWith_inv h).1
  obtain rfl : b = opcode := by simpa using byteAt_ok.mp h0
  exact hop

/-- Settles O5: by the row a byte selects (`OpcodeMap.lookup_eq_some_iff`) and the byte a decoder and a fetch
look up (`lookup_head_of_decodeWith`, `Machine.fetch_inv`). -/
theorem opcodeByteSelectsOneRow : Obligations.OpcodeByteSelectsOneRow := by
  refine fun m hm => ⟨?lookup, ?injective, ?decode, ?fetch⟩
  case lookup => exact fun b op => OpcodeMap.lookup_eq_some_iff hm
  case injective => exact fun b c op => OpcodeMap.eq_of_lookup_eq_some
  case decode => exact fun b bytes i rest => lookup_head_of_decodeWith
  case fetch =>
    intro s i h
    obtain ⟨-, hop, -⟩ := Machine.fetch_inv h
    exact hop

end Sys2Proof
end

section
/-! PROOFS. The step: when there is one (R71). -/

namespace Sys2Proof.Machine

/-- From Running there is a step: a failed fetch raises, and the instruction fetched answers a next state. -/
theorem exists_step_of_running {s : State} (hr : s.run = .running) : ∃ t, step s = .next t := by
  cases hf : fetch s with
  | error e => exact ⟨raise e s, step_of_fetch_error hr hf⟩
  | ok i =>
    rw [step_of_fetch hr hf]
    exact exec_answers_next i s

/-- Settles O10: a step leads on only from Running (`step_cases`), and always does (`exists_step_of_running`). -/
theorem stepExistsExactlyWhileRunning : Obligations.StepExistsExactlyWhileRunning := by
  refine fun s => ⟨?_, exists_step_of_running⟩
  rintro ⟨t, h⟩
  exact (step_cases h).1

end Sys2Proof.Machine
end

section
/-! PROOFS. An instruction that reaches past the last cell (R73, R75). -/

namespace Sys2Proof

/-- The row sets the length: one byte with no operand, three with two, else two (R50, R54). -/
theorem Instr.length_eq_of_op (i : Instr) :
    i.length = if i.op ∈ [Op.hlt, .ret] then 1
      else if i.op ∈ [Op.ldi, .add, .mul, .cmp] then 3 else 2 := by
  cases i <;> rfl

theorem Instr.length_congr {i j : Instr} (h : i.op = j.op) : i.length = j.length := by
  rw [i.length_eq_of_op, j.length_eq_of_op, h]

namespace Machine

/-- Where an instruction's opcode stands but not all its bytes fit, the step raises `OutOfBounds(256)`: a fetch that
succeeds would lie in memory whole, and a fetch that fails did not fail at the opcode. -/
theorem operandPastEndFaults_code (i : Instr) : OperandPastEndFaults (opcodeMap.code i.op) i.length := by
  intro s hr hp hop hfar
  have hlookup : opcodeMap.lookup (s.mem.read s.pc.toNat) = some i.op :=
    hop ▸ OpcodeMap.lookup_code opcodeMap_distinct i.op
  cases hf : fetch s with
  | ok j =>
    obtain ⟨hfit, hj, -⟩ := fetch_inv hf
    have hlen : j.length = i.length := Instr.length_congr (Option.some.inj (hj.symm.trans hlookup))
    omega
  | error e =>
    rw [step_of_fetch_error hr hf]
    obtain rfl | ⟨-, hnone⟩ := fetch_error_inv (by omega) hf
    · exact faults_raise s _
    · simp [hlookup] at hnone

/-- At `pc = 256` the fetch of the opcode itself raises `OutOfBounds(256)` (R73). -/
theorem step_at_256_faults {s : State} (hr : s.run = .running) (hp : s.pc = 256#9) :
    Faults s .outOfBounds 256 (step s) := by
  have hbyte : fetchByte s 0 = .error (.outOfBounds 256) := by simpa [hp] using fetchByte_error (s := s) (k := 0)
  have hf : fetch s = .error (.outOfBounds 256) := by simp [fetch, fetchWith, decodeFrom, hbyte]
  rw [step_of_fetch_error hr hf]
  exact faults_raise s _

end Machine

end Sys2Proof
end

section
/-! PROOFS. LDI (R91), with what the other register instructions share: the check of a register operand and the frame
of a register write. -/

namespace Sys2Proof.Machine

/-- An instruction that begins by checking a register operand of 8 or more raises `InvalidRegister` with it (R76). -/
theorem faults_of_invalid_register (s : State) {a : Byte} (ha : 8 ≤ a.toNat) (k : RegIdx → Except Exn State) :
    Faults s .invalidRegister a.toNat (complete s (regOperand a >>= k)) := by
  rw [regOperand_invalid ha]
  exact faults_raise s (.invalidRegister a)

/-- A register write leaves every other register as it was. -/
theorem sameRegsExcept_setReg (s : State) (r : RegIdx) (v : Byte) : SameRegsExcept [r] s (s.setReg r v) :=
  fun _ hq => State.getReg_setReg_of_ne s v (List.ne_of_not_mem_cons hq)

/-- Settles O21: by the state a valid LDI gives (`execLdi_reg`), the fetch at 256 (`step_at_256_faults`), and the two
exceptions (`faults_of_invalid_register`, `operandPastEndFaults_code`). -/
theorem ldiLoadsImmediate : Obligations.LdiLoadsImmediate := by
  refine ⟨fun _ _ => rfl, fun r b s => ?completes, fun a b s ha => ?invalid, ?pastEnd⟩
  case completes =>
    refine ⟨_, execLdi_reg s r b, State.getReg_setReg_self s r b, rfl, sameRegsExcept_setReg s r b,
      fun _ _ => rfl, ⟨rfl, rfl, rfl, rfl⟩, fun hr hp => ?_⟩
    have hpc : ((s.setReg r b).advance 3).pc = 256#9 := by simp [hp]
    exact ⟨hpc, step_at_256_faults hr hpc⟩
  case invalid => exact faults_of_invalid_register s ha _
  case pastEnd => exact operandPastEndFaults_code (.ldi 0#8 0#8)

end Sys2Proof.Machine
end

section
/-! PROOFS. Compare and branch (R115): the flag a branch reads is the equality CMP found, and no other instruction
writes it. -/

namespace Sys2Proof.Machine

/-- Of the flags of a comparison, E says that the two bytes are equal. -/
theorem compareFlags_e (x y : Byte) : (compareFlags x y).e = decide (x = y) := by
  by_cases hxy : x = y
  · simp [compareFlags, hxy, flagsE]
  · by_cases hlt : y.toNat < x.toNat
    · simp [compareFlags, hxy, hlt, flagsG]
    · simp [compareFlags, hxy, hlt, flagsL]

/-- Where a conditional jump leads: to the target when taken, else past its own two bytes. -/
theorem State.branch_pc (u : State) (taken : Bool) (target : Pc) :
    (if taken then u.setPc target else u.advance 2).pc = if taken then target else u.pc + 2#9 := by
  cases taken <;> rfl

/-- An instruction other than CMP, whether it completes or raises, leaves `FL` as it was. -/
theorem exec_fl_of_ne_cmp {i : Instr} {s t : State} (hi : i.op ≠ .cmp) (h : exec i s = .next t) : t.fl = s.fl := by
  revert hi
  refine exec_elim (P := fun i t => i.op ≠ .cmp → t.fl = s.fl) ?raise ?hlt
    ?ldi ?prn ?add ?mul ?cmp ?jmp ?jeq ?jne ?push ?pop ?call ?ret h
  case cmp => exact fun _ _ hne => absurd rfl hne
  case jeq | jne =>
    intro r _
    split <;> rfl
  all_goals (intros; rfl)

/-- Settles O34: JEQ and JNE branch on E (`State.branch_pc`), which CMP set to the equality of its operands
(`compareFlags_e`) and nothing but CMP changes (`exec_fl_of_ne_cmp`). -/
theorem compareThenBranch : Obligations.CompareThenBranch := by
  refine ⟨fun ra rb s => ⟨_, execCmp_reg s ra rb, fun r u hfl => ?branch⟩, fun i s t => exec_fl_of_ne_cmp⟩
  case branch =>
    have he : u.fl.e = decide (s.getReg ra = s.getReg rb) := by rw [hfl]; exact compareFlags_e _ _
    refine ⟨_, _, execJeq_reg u r, execJne_reg u r, ?jeq, ?jne⟩
    case jeq => rw [State.branch_pc, he]; simp only [decide_eq_true_eq]
    case jne => rw [State.branch_pc, he]; simp only [Bool.not_eq_true', decide_eq_false_iff_not, ite_not]

end Sys2Proof.Machine
end

section
/-! PROOFS. The stack laws (R126): a POP of what the same register pushed, and a RET to what CALL pushed. -/

namespace Sys2Proof.Machine

section PushPop

variable (s : State) (r : RegIdx)

/-- After a PUSH, a POP into the same register increments from the `SP` the push left: for register 7 too, since
what PUSH R7 stored is the decremented `SP` (D11). -/
theorem pushed_popSp : (s.pushed r).popSp r = s.sp - 1#8 := by
  by_cases hr : r = 7
  · subst hr
    rw [popSp_seven, pushed_sp, pushed_read_self, pushed_getReg, if_pos rfl]
  · rw [popSp_of_ne _ _ hr, pushed_sp]

/-- PUSH then POP of one register leaves every register as it was. -/
theorem popped_pushed_getReg (q : RegIdx) : ((s.pushed r).popped r).getReg q = s.getReg q := by
  rw [popped_getReg, pushed_popSp, pushed_sp, pushed_read_self]
  split_ifs with hq hqr
  · subst hq
    exact BitVec.sub_add_cancel s.sp 1#8
  · subst hqr
    rw [pushed_getReg, if_neg hq]
  · rw [pushed_getReg, if_neg hq]

/-- The POP does not fault: the `SP` it increments is one below a byte that is not 0. -/
theorem execPop_pushed (h : s.sp ≠ 0#8) :
    execPop (regByte r) (s.pushed r) = .next ((s.pushed r).popped r) := by
  refine execPop_reg _ r ?_
  rw [pushed_popSp]
  bv_omega

/-- A PUSH changes the one cell below `SP`. -/
theorem sameMemExcept_pushed (h : s.sp ≠ 0#8) : SameMemExcept [s.sp.toNat - 1] s (s.pushed r) := by
  intro a ha
  rw [← toNat_sub_one h] at ha
  exact pushed_read_of_ne s r (List.ne_of_not_mem_cons ha)

end PushPop

/-- A return address that CALL accepts fits a byte, so it reads back as the `pc` it was computed from, plus 2. -/
theorem zext9_returnAddress {p : Pc} (hp : p.toNat ≤ 253) : zext9 (BitVec.ofNat 8 (p.toNat + 2)) = p + 2#9 := by
  apply BitVec.eq_of_toNat_eq
  rw [toNat_zext9]
  bv_omega

/-- A RET from any state with the `SP` and the stacked byte that a CALL left completes, with `pc` after the CALL
and `SP` as before it. -/
theorem execRet_of_called {s u : State} {r : RegIdx} (h : s.sp ≠ 0#8) (hp : s.pc.toNat ≤ 253)
    (hsp : u.sp = (s.called r).sp) (htop : u.mem.read u.sp.toNat = (s.called r).mem.read (s.called r).sp.toNat) :
    execRet u = .next u.returned ∧ u.returned.pc = s.pc + 2#9 ∧ u.returned.sp = s.sp := by
  rw [called_sp] at hsp htop
  rw [called_read_self] at htop
  refine ⟨execRet_ok u ?completes, ?pc, ?sp⟩
  case completes =>
    rw [hsp]
    bv_omega
  case pc => rw [returned_pc, htop, zext9_returnAddress hp]
  case sp => rw [returned_sp, hsp, BitVec.sub_add_cancel]

/-- Settles O35: PUSH then POP gives every register back (`popped_pushed_getReg`), and RET reads back the return
address that CALL stored (`execRet_of_called`). -/
theorem pushPopAndCallRet : Obligations.PushPopAndCallRet := by
  refine ⟨fun r s h => ?pushPop, fun r s h hp => ?callRet⟩
  case pushPop =>
    have hregs := popped_pushed_getReg s r
    exact ⟨_, _, execPush_reg s r h, execPop_pushed s r h, hregs r, hregs 7, fun q _ => hregs q,
      sameMemExcept_pushed s r h⟩
  case callRet =>
    exact ⟨_, execCall_reg s r hp h, fun u hsp htop => ⟨_, execRet_of_called h hp hsp htop⟩⟩

end Sys2Proof.Machine
end

section
/-! PROOFS. `Init`: the image in memory (R141). -/

namespace Sys2Proof.Machine

/-- An image that fits is accepted: it is placed in the reset state from address 0 (R141). -/
theorem init_ok {image : List Byte} (h : image.length ≤ Config.memSize) :
    init image = .next { State.reset with mem := Memory.place Config.loadBase image State.reset.mem } :=
  if_pos h

/-- Every cell is 0 after reset (R22). -/
@[simp] theorem reset_mem_read (a : Nat) : State.reset.mem.read a = 0#8 := rfl

/-- Settles O2: by what the placed image reads as inside its length (`Memory.read_place`) and past it
(`Memory.read_place_above`). -/
theorem initLoadsImageFromZero : Obligations.InitLoadsImageFromZero := by
  refine fun image hlen => ⟨_, init_ok hlen, fun k hk => ?inside, fun a ha => ?past, rfl, rfl, rfl, rfl, rfl, rfl⟩
  case inside =>
    have hcell : Config.loadBase + k < 256 := by simpa using hk.trans_le hlen
    simpa using Memory.read_place State.reset.mem Config.loadBase k image hk hcell
  case past =>
    have hpast : Config.loadBase + image.length ≤ a := by simpa using ha
    exact (Memory.read_place_above State.reset.mem image hpast).trans (reset_mem_read a)

end Sys2Proof.Machine
end

section
/-! PROOFS. The exceptions: a fault is precise and final (R167, R168), and the check of a register operand (R162). -/

namespace Sys2Proof.Machine

/-- A fault leaves the core no step (R71, R170). -/
theorem Faults.noStep {s t : State} {cause : Cause} {info : Int} (h : Faults s cause info (.next t)) : NoStep t :=
  noStep_of_not_running (by simp [h.run_eq])

/-- Of a faulted state the host reads `RUN` and the whole fault record (R145). -/
theorem State.status_of_faulted {t : State} (h : t.run = .faulted) : t.status = (.faulted, t.fault) := by
  simp [State.status, h]

/-- Settles O12: a step that ends Faulted took an exception from the state it began in (`step_faulted_iff`), whose
record the host reads (`State.status_of_faulted`) and which no step follows (`Faults.noStep`). -/
theorem faultsArePrecise : Obligations.FaultsArePrecise := by
  refine ⟨faults_raise, fun s t h ht => ?_⟩
  obtain ⟨cause, info, hf⟩ := (step_faulted_iff h).mp ht
  rw [h] at hf
  have hstatus := State.status_of_faulted ht
  have hstop := hf.noStep
  cases hf
  exact ⟨cause, info, rfl, hstatus, hstop⟩

/-- An instruction that checks two register operands, of which the first is valid and the second 8 or more, raises
`InvalidRegister` with the second (R162). -/
theorem faults_of_invalid_second_register (s : State) (r : RegIdx) {b : Byte} (hb : 8 ≤ b.toNat)
    (k : RegIdx → RegIdx → Except Exn State) :
    Faults s .invalidRegister b.toNat (complete s (regOperand (regByte r) >>= fun ra => regOperand b >>= k ra)) := by
  rw [regOperand_regByte]
  exact faults_of_invalid_register s hb (k r)

/-- Settles O13: each of the eleven meanings begins by checking its first operand (`faults_of_invalid_register`), and
those of ADD, MUL and CMP then check the second (`faults_of_invalid_second_register`). -/
theorem invalidRegisterOperandRaises : Obligations.InvalidRegisterOperandRaises := by
  refine fun s x hx => ⟨fun b => ?first, fun r => ?second⟩
  case first =>
    simp only [List.forall_mem_cons, List.not_mem_nil, false_implies, implies_true, and_true]
    refine ⟨?ldi, ?prn, ?add, ?mul, ?cmp, ?jmp, ?jeq, ?jne, ?push, ?pop, ?call⟩ <;>
      exact faults_of_invalid_register s hx _
  case second =>
    simp only [List.forall_mem_cons, List.not_mem_nil, false_implies, implies_true, and_true]
    refine ⟨?addSecond, ?mulSecond, ?cmpSecond⟩ <;> exact faults_of_invalid_second_register s r hx _

end Sys2Proof.Machine
end

section
/-! PROOFS. The round trip of the encoding (R50, R52, R54, R57). -/

namespace Sys2Proof

/-- With distinct values, decoding the encoding of an instruction gives it back with the bytes that follow. -/
theorem decodeWith_encodeWith_append {m : OpcodeMap} (hm : m.Distinct) (i : Instr) (rest : List Byte) :
    decodeWith m (encodeWith m i ++ rest) = .ok (i, rest) := by
  have hread : decodeFrom m (byteAt (encodeWith m i ++ rest)) .illegalOpcode = .ok i :=
    decodeFrom_of_encode hm _ i fun k hk => by
      rw [byteAt_ok, List.getElem?_append_left hk, List.getElem?_eq_getElem hk]
  have hrest : (encodeWith m i ++ rest).drop i.length = rest := List.drop_left' (length_encodeWith m i)
  simp only [decodeWith, hread, hrest]

/-- Settles O6: the decoder reads the encoding back byte by byte (`decodeFrom_of_encode`). -/
theorem decodeOfEncode : Obligations.DecodeOfEncode :=
  fun _ hm i rest => decodeWith_encodeWith_append hm i rest

/-- Bytes that decode begin with the encoding of what they decode to. -/
theorem encodeWith_prefix_of_decodeWith {m : OpcodeMap} {bytes rest : List Byte} {i : Instr}
    (h : decodeWith m bytes = .ok (i, rest)) : encodeWith m i <+: bytes := by
  obtain ⟨-, -, -, hread⟩ := decodeFrom_inv (decodeWith_inv h).1
  rw [List.prefix_iff_getElem?]
  exact fun k hk => byteAt_ok.mp (hread k hk)

/-- Settles O7: the bytes begin with the encoding (`encodeWith_prefix_of_decodeWith`), the rest is what follows its
length, and the row sets that length (`Instr.length_eq_of_op`). -/
theorem decodedBytesAreTheEncoding : Obligations.DecodedBytesAreTheEncoding := by
  refine fun m bytes rest i h => ⟨?bytes, length_encodeWith m i, i.length_eq_of_op⟩
  case bytes =>
    obtain ⟨tail, rfl⟩ := encodeWith_prefix_of_decodeWith h
    rw [(decodeWith_inv h).2, List.drop_left' (length_encodeWith m i)]

end Sys2Proof
end

section
/-! PROOFS. The invariant: every step keeps it, and it holds when a run begins. -/

namespace Sys2Proof.Machine

/-- What an instruction raises by itself is a record that R19 allows. -/
theorem Exn.ofExec.legal {e : Exn} (he : e.ofExec) (pc : Pc) :
    FaultRecord.legal { cause := e.cause, pc := pc, info := e.info } := by
  obtain rfl | rfl | ⟨a, ha, rfl⟩ := he
  · exact .inl rfl
  · exact .inr rfl
  · have := a.isLt
    show 8 ≤ (a.toNat : Int) ∧ (a.toNat : Int) ≤ 255
    omega

/-- What a fetch raises from a `pc` of 0..256 is a record that R19 allows. -/
theorem legal_of_fetch_error {s : State} {e : Exn} (hp : s.pc.toNat ≤ 256) (h : fetch s = .error e) :
    FaultRecord.legal { cause := e.cause, pc := s.pc, info := e.info } := by
  obtain rfl | ⟨rfl, hnone⟩ := fetch_error_inv hp h
  · exact .inl rfl
  · exact ⟨_, rfl, hnone⟩

/-- Taking a legal exception keeps the invariant. -/
theorem Inv.raise {s : State} (hs : Inv s) {e : Exn}
    (he : FaultRecord.legal { cause := e.cause, pc := s.pc, info := e.info }) : Inv (raise e s) where
  mem_wf := hs.mem_wf
  pc_le := hs.pc_le
  flags_one := hs.flags_one
  fault_iff := by simp
  record := by
    rintro r hr
    cases hr
    exact ⟨rfl, he⟩

/-- From Running, the fault record of a state that meets the invariant is empty. -/
theorem Inv.fault_eq_none {s : State} (hs : Inv s) (hr : s.run = .running) : s.fault = none := by
  have hnot : ¬ s.fault.isSome = true := fun h => by simpa [hr] using hs.fault_iff.mp h
  simpa using hnot

/-- An instruction that completes keeps the invariant when its memory, `pc` and flags meet their parts of it. -/
theorem inv_of_no_fault {t : State} (hmem : t.mem.wf) (hpc : t.pc.toNat ≤ 256)
    (hfl : (t.fl.e && t.fl.g || t.fl.e && t.fl.l || t.fl.g && t.fl.l) = false)
    (hrun : t.run ≠ .faulted) (hfault : t.fault = none) : Inv t where
  mem_wf := hmem
  pc_le := hpc
  flags_one := hfl
  fault_iff := by simp [hrun, hfault]
  record := by simp [hfault]

/-- CMP sets one flag at most (R110). -/
theorem compareFlags_one (x y : Byte) :
    ((compareFlags x y).e && (compareFlags x y).g || (compareFlags x y).e && (compareFlags x y).l ||
      (compareFlags x y).g && (compareFlags x y).l) = false := by
  unfold compareFlags
  split_ifs <;> rfl

/-- The fall-through of an instruction that fits in memory stays at most 256 (R14). -/
theorem toNat_add_le {p : Pc} {n : Nat} (h : p.toNat + n ≤ 256) : (p + BitVec.ofNat 9 n).toNat ≤ 256 := by
  rw [BitVec.toNat_add, BitVec.toNat_ofNat]
  omega

/-- A byte that is loaded into `pc` is the address of a cell. -/
theorem toNat_zext9_le (v : Byte) : (zext9 v).toNat ≤ 255 := by
  have := v.isLt
  rw [toNat_zext9]
  omega

/-- An instruction that was fetched whole keeps the invariant. -/
theorem exec_keeps_inv {i : Instr} {s t : State} (hs : Inv s) (hr : s.run = .running)
    (hfit : s.pc.toNat + i.length ≤ 256) (h : exec i s = .next t) : Inv t := by
  have hfault := hs.fault_eq_none hr
  have hrun : s.run ≠ .faulted := by simp [hr]
  have hzext : ∀ v : Byte, (zext9 v).toNat ≤ 256 := fun v => (toNat_zext9_le v).trans (by omega)
  have hstore : ∀ v w : Byte, (s.mem.write v.toNat w).wf := fun v w => Memory.write_wf w hs.mem_wf v.isLt
  revert hfit
  refine exec_elim (P := fun i t => s.pc.toNat + i.length ≤ 256 → Inv t) ?raise ?hlt
    ?ldi ?prn ?add ?mul ?cmp ?jmp ?jeq ?jne ?push ?pop ?call ?ret h
  case raise => exact fun i e he _ => hs.raise (he.legal s.pc)
  case hlt => exact fun _ => inv_of_no_fault hs.mem_wf hs.pc_le hs.flags_one nofun hfault
  case ldi | add | mul =>
    exact fun _ _ hfit => inv_of_no_fault hs.mem_wf (toNat_add_le hfit) hs.flags_one hrun hfault
  case prn => exact fun _ hfit => inv_of_no_fault hs.mem_wf (toNat_add_le hfit) hs.flags_one hrun hfault
  case cmp =>
    exact fun _ _ hfit => inv_of_no_fault hs.mem_wf (toNat_add_le hfit) (compareFlags_one _ _) hrun hfault
  case jmp => exact fun _ _ => inv_of_no_fault hs.mem_wf (hzext _) hs.flags_one hrun hfault
  case jeq | jne =>
    intro r hfit
    split
    · exact inv_of_no_fault hs.mem_wf (hzext _) hs.flags_one hrun hfault
    · exact inv_of_no_fault hs.mem_wf (toNat_add_le hfit) hs.flags_one hrun hfault
  case push => exact fun _ _ hfit => inv_of_no_fault (hstore _ _) (toNat_add_le hfit) hs.flags_one hrun hfault
  case pop => exact fun _ _ hfit => inv_of_no_fault hs.mem_wf (toNat_add_le hfit) hs.flags_one hrun hfault
  case call => exact fun _ _ _ _ => inv_of_no_fault (hstore _ _) (hzext _) hs.flags_one hrun hfault
  case ret => exact fun _ _ => inv_of_no_fault hs.mem_wf (hzext _) hs.flags_one hrun hfault

/-- Settles O45: a step raises a legal exception (`Inv.raise`) or runs an instruction that was fetched whole
(`exec_keeps_inv`). -/
theorem everyStepKeepsInvariant : Obligations.EveryStepKeepsInvariant := by
  intro s t hs h
  obtain ⟨hr, ⟨e, hf, rfl⟩ | ⟨i, hf, hx⟩⟩ := step_cases h
  · exact hs.raise (legal_of_fetch_error hs.pc_le hf)
  · obtain ⟨hfit, -, -⟩ := fetch_inv hf
    exact exec_keeps_inv hs hr hfit hx

/-- The reset state with any canonical memory meets the invariant. -/
theorem inv_reset_with_mem {mem : Memory} (h : mem.wf) : Inv { State.reset with mem := mem } :=
  inv_of_no_fault h (Nat.zero_le _) rfl nofun rfl

/-- Settles O46: `Init` gives the reset state with the image placed in memory (`init_inv`), and placing keeps memory
canonical (`Memory.place_wf`). -/
theorem invariantHoldsAfterInit : Obligations.InvariantHoldsAfterInit := by
  have hreset : State.reset.mem.wf := ⟨List.Pairwise.nil, by simp [State.reset]⟩
  refine ⟨inv_reset_with_mem hreset, fun image t h => ?_⟩
  obtain ⟨-, rfl⟩ := init_inv h
  exact inv_reset_with_mem (Memory.place_wf _ image hreset)

end Sys2Proof.Machine
end

section
/-! PROOFS. Where an instruction lies in memory: the step that runs it (R35, R72), and a byte that is no opcode. -/

namespace Sys2Proof.Machine

/-- An instruction whose bytes lie at `pc` is the one the next step runs. -/
theorem step_of_bytes {s : State} (hr : s.run = .running) (i : Instr) (hfit : s.pc.toNat + i.length ≤ 256)
    (h : ∀ k (hk : k < (encode i).length), s.mem.read (s.pc.toNat + k) = (encode i)[k]) :
    step s = exec i s :=
  step_of_fetch hr (fetch_of_bytes opcodeMap_distinct i hfit h)

/-- Settles O9: the placed bytes are what memory then reads at `pc` (`Memory.read_place`). -/
theorem placedInstructionRuns : Obligations.PlacedInstructionRuns := by
  refine fun i s hfit => step_of_bytes rfl i hfit fun k hk => ?_
  have hlen : (encode i).length = i.length := length_encodeWith opcodeMap i
  exact Memory.read_place s.mem s.pc.toNat k (encode i) hk (by omega)

/-- An instruction without operands runs wherever its opcode byte stands, the last cell included (R75). -/
theorem step_of_opcode {s : State} (hr : s.run = .running) (hp : s.pc.toNat ≤ 255) (i : Instr)
    (hi : i.operands = []) (hop : s.mem.read s.pc.toNat = opcodeMap.code i.op) : step s = exec i s := by
  have henc : encode i = [opcodeMap.code i.op] := by rw [encode, encodeWith, hi]
  refine step_of_bytes hr i ?fits fun k hk => ?byte
  case fits =>
    rw [Instr.length, hi, List.length_nil]
    omega
  case byte =>
    obtain rfl : k = 0 := by simpa [henc] using hk
    simpa [henc] using hop

/-- Byte number k of the bytes from `pc` is the cell `pc + k`, as long as that is a cell. -/
theorem bytesAtPc_getElem?_eq_some {s : State} {k : Nat} {b : Byte} :
    (bytesAtPc s)[k]? = some b ↔ s.pc.toNat + k < 256 ∧ s.mem.read (s.pc.toNat + k) = b := by
  have hlt : k < 256 - s.pc.toNat ↔ s.pc.toNat + k < 256 := by omega
  simp [bytesAtPc, List.getElem?_eq_some_iff, hlt]

/-- Settles O8: the decoder and the fetch read the same bytes (`bytesAtPc_getElem?_eq_some`), so what the bytes decode
to is what lies at `pc`. -/
theorem stepRunsDecodedInstruction : Obligations.StepRunsDecodedInstruction := by
  intro s i rest hr h
  obtain ⟨-, -, -, hread⟩ := decodeFrom_inv (decodeWith_inv h).1
  have hcell : ∀ k (hk : k < (encode i).length),
      s.pc.toNat + k < 256 ∧ s.mem.read (s.pc.toNat + k) = (encode i)[k] :=
    fun k hk => bytesAtPc_getElem?_eq_some.mp (byteAt_ok.mp (hread k hk))
  refine step_of_bytes hr i ?fits fun k hk => (hcell k hk).2
  case fits =>
    have hlen : (encode i).length = i.operands.length + 1 := rfl
    have hlast := (hcell i.operands.length (by omega)).1
    rw [Instr.length]
    omega

/-- Fetching a byte that is no opcode raises `IllegalInstruction` with it (R163). -/
theorem step_illegal_faults {s : State} (hr : s.run = .running) (hp : s.pc.toNat ≤ 255)
    (hnone : opcodeMap.lookup (s.mem.read s.pc.toNat) = none) :
    Faults s .illegalInstruction (s.mem.read s.pc.toNat).toNat (step s) := by
  have hbyte : fetchByte s 0 = .ok (s.mem.read s.pc.toNat) := fetchByte_ok (by omega)
  have hf : fetch s = .error (.illegalInstruction (s.mem.read s.pc.toNat)) := by
    simp only [fetch, fetchWith, decodeFrom, hbyte, hnone]
  rw [step_of_fetch_error hr hf]
  exact faults_raise s _

/-- Settles O15: by counting the table, and by the fetch of such a byte (`step_illegal_faults`). -/
theorem illegalOpcodeRaises : Obligations.IllegalOpcodeRaises :=
  ⟨by decide +kernel, by decide, fun _ => step_illegal_faults⟩

/-- After a PUSH, the cell at the new `SP` holds the pushed register's value (R121). -/
theorem pushed_read_sp (s : State) (r : RegIdx) :
    (s.pushed r).mem.read (s.pushed r).sp.toNat = (s.pushed r).getReg r := by
  rw [pushed_sp, pushed_read_self]

/-- Settles O19: the fetch at the new `SP` reads what the PUSH stored (`pushed_read_sp`). -/
theorem storeIsSeenByNextFetch : Obligations.StoreIsSeenByNextFetch := by
  intro s r hr h hf
  have hexec : exec (.push (regByte r)) s = .next (s.pushed r) := execPush_reg s r h
  refine ⟨s.pushed r, (step_of_fetch hr hf).trans hexec, hexec, fun u hmem hpc hru => ?_⟩
  have haddr : u.pc.toNat = (s.pushed r).sp.toNat := by rw [hpc, toNat_zext9]
  have hlt : u.pc.toNat ≤ 255 := by
    have := (s.pushed r).sp.isLt
    omega
  have hread : u.mem.read u.pc.toNat = (s.pushed r).getReg r := by rw [hmem, haddr, pushed_read_sp]
  rw [← hread]
  exact ⟨fun hret => step_of_opcode hru hlt .ret rfl hret, step_illegal_faults hru hlt⟩

end Sys2Proof.Machine
end


section
/-! PROOFS. A conditional jump as one write of `pc`. -/

namespace Sys2Proof.Machine

/-- A conditional jump writes `pc` and nothing else, whether or not it is taken. -/
theorem State.branch_eq_setPc (u : State) (taken : Bool) (target : Pc) :
    (if taken then u.setPc target else u.advance 2) = u.setPc (if taken then target else u.pc + 2#9) := by
  cases taken <;> rfl

variable (s : State) (r : RegIdx)

theorem execJeq_setPc :
    execJeq (regByte r) s = .next (s.setPc (if s.fl.e then zext9 (s.getReg r) else s.pc + 2#9)) := by
  rw [execJeq_reg, State.branch_eq_setPc]

theorem execJne_setPc :
    execJne (regByte r) s = .next (s.setPc (if !s.fl.e then zext9 (s.getReg r) else s.pc + 2#9)) := by
  rw [execJne_reg, State.branch_eq_setPc]

end Sys2Proof.Machine
end

section
/-! PROOFS. The checks of an instruction once it is fetched, in the order of R79: what it raises is the first that
fails. -/

namespace Sys2Proof.Machine

/-- The check of a register operand, as what it raises when it fails (R76). -/
def registerCheck (a : Byte) : Option (Cause × Int) :=
  if 8 ≤ a.toNat then some (.invalidRegister, (a.toNat : Int)) else none

/-- The check that fails when `bad` holds, and then raises `OutOfBounds(addr)` (R161). -/
def boundCheck (bad : Bool) (addr : Int) : Option (Cause × Int) := if bad then some (.outOfBounds, addr) else none

/-- The checks of an instruction in the order of R79: register operands, the return address of CALL, the stack
pointer. POP increments what register 7 holds after the load (D11). -/
def checks (s : State) : Instr → List (Option (Cause × Int))
  | .hlt => []
  | .ldi a _ | .prn a | .jmp a | .jeq a | .jne a => [registerCheck a]
  | .add a b | .mul a b | .cmp a b => [registerCheck a, registerCheck b]
  | .push a => [registerCheck a, boundCheck (s.sp == 0#8) (-1)]
  | .pop a => [registerCheck a, boundCheck ((if a = 7#8 then s.mem.read s.sp.toNat else s.sp) == 255#8) 256]
  | .call a => [registerCheck a, boundCheck (254 ≤ s.pc.toNat) 256, boundCheck (s.sp == 0#8) (-1)]
  | .ret => [boundCheck (s.sp == 255#8) 256]

/-- What the first check that fails raises. -/
def firstFault (checks : List (Option (Cause × Int))) : Option (Cause × Int) := checks.foldr Option.or none

@[simp] theorem firstFault_nil : firstFault [] = none := rfl

@[simp] theorem firstFault_registerCheck (a : Byte) (rest : List (Option (Cause × Int))) :
    firstFault (registerCheck a :: rest) =
      if 8 ≤ a.toNat then some (.invalidRegister, (a.toNat : Int)) else firstFault rest := by
  by_cases ha : 8 ≤ a.toNat <;> simp [firstFault, registerCheck, ha]

@[simp] theorem firstFault_boundCheck (bad : Bool) (addr : Int) (rest : List (Option (Cause × Int))) :
    firstFault (boundCheck bad addr :: rest) = if bad then some (.outOfBounds, addr) else firstFault rest := by
  cases bad <;> rfl

/-- The outcome `r` is what checks made at `s` answer: the exception taken from `s`, or, if none failed, a next
state that is not Faulted and has the fault record of `s`. -/
def EndsAs (s : State) (r : Result) : Option (Cause × Int) → Prop
  | some (cause, info) => Faults s cause info r
  | none => ∃ t, r = .next t ∧ t.run ≠ .faulted ∧ t.fault = s.fault

theorem regByte_eq_seven {r : RegIdx} : regByte r = 7#8 ↔ r = 7 := by
  rw [← BitVec.toNat_inj, toNat_regByte, Fin.ext_iff]
  rfl

section Ends

variable {s : State} {r : Result} {rest : List (Option (Cause × Int))}

/-- A register operand is checked first: the instruction raises, or goes on with the register to the other checks. -/
theorem endsAs_register {a : Byte} {k : RegIdx → Except Exn State}
    (h : ∀ q, a = regByte q → EndsAs s (complete s (regOperand (regByte q) >>= k)) (firstFault rest)) :
    EndsAs s (complete s (regOperand a >>= k)) (firstFault (registerCheck a :: rest)) := by
  rw [firstFault_registerCheck]
  by_cases ha : 8 ≤ a.toNat
  · rw [if_pos ha]
    exact faults_of_invalid_register s ha k
  · have hq := eq_regByte (a := a) (by omega)
    rw [if_neg ha, hq]
    exact h _ hq

/-- Two register operands are checked, `a` before `b`. -/
theorem endsAs_registers {a b : Byte} {k : RegIdx → RegIdx → Except Exn State}
    (h : ∀ q p, EndsAs s (complete s (regOperand (regByte q) >>= fun ra => regOperand (regByte p) >>= k ra))
      (firstFault rest)) :
    EndsAs s (complete s (regOperand a >>= fun ra => regOperand b >>= k ra))
      (firstFault (registerCheck a :: registerCheck b :: rest)) := by
  refine endsAs_register fun q _ => ?_
  have hfirst : ∀ c, (regOperand (regByte q) >>= fun ra => regOperand c >>= k ra) = regOperand c >>= k q :=
    fun c => by rw [regOperand_regByte, ok_bind]
  rw [hfirst]
  refine endsAs_register fun p _ => ?_
  rw [← hfirst]
  exact h q p

/-- A bound is checked first: the instruction raises where it is broken, and else goes on to the other checks. -/
theorem endsAs_bound {bad : Bool} {addr : Int} (hbad : bad = true → r = .next (raise (.outOfBounds addr) s))
    (hok : bad = false → EndsAs s r (firstFault rest)) : EndsAs s r (firstFault (boundCheck bad addr :: rest)) := by
  cases bad with
  | true => exact hbad rfl
  | false => exact hok rfl

/-- No check is left: the instruction completes, and is HLT or leaves `RUN` and `FAULT` as they were. -/
theorem endsAs_completes {t : State} (h : r = .next t) (hr : t.run ≠ .faulted) (hf : t.fault = s.fault) :
    EndsAs s r (firstFault []) := ⟨t, h, hr, hf⟩

/-- An outcome raises an exception exactly when the checks answer it. -/
theorem EndsAs.faults_iff {answer : Option (Cause × Int)} (h : EndsAs s r answer) {cause : Cause} {info : Int} :
    Faults s cause info r ↔ answer = some (cause, info) := by
  cases answer with
  | some e =>
    refine ⟨fun hf => ?_, fun he => ?_⟩
    · cases hf.symm.trans h
      rfl
    · cases he
      exact h
  | none =>
    obtain ⟨t, rfl, hrun, -⟩ := h
    exact ⟨fun hf => absurd hf.run_eq hrun, nofun⟩

end Ends

/-- From Running, an instruction raises what the first of its checks that fails says, and completes when none does. -/
theorem exec_endsAs {s : State} (hr : s.run = .running) (i : Instr) :
    EndsAs s (exec i s) (firstFault (checks s i)) := by
  have hrun : s.run ≠ .faulted := by simp [hr]
  cases i with
  | hlt => exact endsAs_completes (t := s.halt) rfl nofun rfl
  | ldi a b => exact endsAs_register fun q _ => endsAs_completes (execLdi_reg s q b) hrun rfl
  | prn a => exact endsAs_register fun q _ => endsAs_completes (execPrn_reg s q) hrun rfl
  | add a b => exact endsAs_registers fun q p => endsAs_completes (execAdd_reg s q p) hrun rfl
  | mul a b => exact endsAs_registers fun q p => endsAs_completes (execMul_reg s q p) hrun rfl
  | cmp a b => exact endsAs_registers fun q p => endsAs_completes (execCmp_reg s q p) hrun rfl
  | jmp a => exact endsAs_register fun q _ => endsAs_completes (execJmp_reg s q) hrun rfl
  | jeq a => exact endsAs_register fun q _ => endsAs_completes (execJeq_setPc s q) hrun rfl
  | jne a => exact endsAs_register fun q _ => endsAs_completes (execJne_setPc s q) hrun rfl
  | push a =>
    refine endsAs_register fun q _ => endsAs_bound (fun h => ?_) fun h => ?_
    · exact execPush_zero s q (beq_iff_eq.mp h)
    · exact endsAs_completes (execPush_reg s q (beq_eq_false_iff_ne.mp h)) hrun rfl
  | pop a =>
    refine endsAs_register fun q hq => ?_
    have hsp : (if a = 7#8 then s.mem.read s.sp.toNat else s.sp) = s.popSp q := by
      simp only [hq, regByte_eq_seven, State.popSp, State.sp_setReg]
    rw [hsp]
    refine endsAs_bound (fun h => ?_) fun h => ?_
    · exact execPop_max s q (beq_iff_eq.mp h)
    · exact endsAs_completes (execPop_reg s q (beq_eq_false_iff_ne.mp h)) hrun rfl
  | call a =>
    refine endsAs_register fun q _ => endsAs_bound (fun hp => ?_) fun hp => endsAs_bound (fun h => ?_) fun h => ?_
    · exact execCall_far s q (of_decide_eq_true hp)
    · have := of_decide_eq_false hp
      exact execCall_zero s q (by omega) (beq_iff_eq.mp h)
    · have := of_decide_eq_false hp
      exact endsAs_completes (execCall_reg s q (by omega) (beq_eq_false_iff_ne.mp h)) hrun rfl
  | ret =>
    refine endsAs_bound (fun h => ?_) fun h => ?_
    · exact execRet_max s (beq_iff_eq.mp h)
    · exact endsAs_completes (execRet_ok s (beq_eq_false_iff_ne.mp h)) hrun rfl

/-- Whether the first check that fails is that of a register operand. -/
def FaultsInvalidRegister (checks : List (Option (Cause × Int))) : Prop :=
  ∃ info, firstFault checks = some (.invalidRegister, info)

section InvalidRegister

variable {rest : List (Option (Cause × Int))}

theorem not_faultsInvalidRegister_nil : ¬ FaultsInvalidRegister [] := nofun

/-- A register operand that is checked first raises `InvalidRegister`, or leaves that to the other checks. -/
theorem faultsInvalidRegister_register {a : Byte} :
    FaultsInvalidRegister (registerCheck a :: rest) ↔ validReg a = false ∨ FaultsInvalidRegister rest := by
  rw [FaultsInvalidRegister, firstFault_registerCheck]
  by_cases ha : 8 ≤ a.toNat
  · simp [validReg, ha]
  · simp [validReg, ha, FaultsInvalidRegister]

/-- When no check but those of bounds is left, `InvalidRegister` is not raised. -/
theorem faultsInvalidRegister_bound {bad : Bool} {addr : Int} (h : ¬ FaultsInvalidRegister rest) :
    ¬ FaultsInvalidRegister (boundCheck bad addr :: rest) := by
  cases bad with
  | true => exact nofun
  | false => exact h

end InvalidRegister

/-- An instruction that is not well formed is one whose first failing check is that of a register operand: register
operands are checked before anything else. -/
theorem faultsInvalidRegister_checks (s : State) (i : Instr) :
    FaultsInvalidRegister (checks s i) ↔ i.wellFormed = false := by
  cases i with
  | hlt | ret => simp [checks, Instr.wellFormed, not_faultsInvalidRegister_nil, faultsInvalidRegister_bound]
  | ldi a _ | prn a | jmp a | jeq a | jne a =>
    simp [checks, Instr.wellFormed, faultsInvalidRegister_register, not_faultsInvalidRegister_nil]
  | add a b | mul a b | cmp a b =>
    simp only [checks, Instr.wellFormed, faultsInvalidRegister_register, not_faultsInvalidRegister_nil, or_false,
      Bool.and_eq_false_iff]
  | push a | pop a | call a =>
    simp [checks, Instr.wellFormed, faultsInvalidRegister_register, faultsInvalidRegister_bound,
      not_faultsInvalidRegister_nil]

/-- Settles O14: an instruction raises what its first failing check says (`exec_endsAs`), which is that of a register
operand exactly when it is not well formed (`faultsInvalidRegister_checks`). -/
theorem illFormedExactlyInvalidRegister : Obligations.IllFormedExactlyInvalidRegister := by
  intro i s hr
  rw [← faultsInvalidRegister_checks s i]
  exact exists_congr fun info => (exec_endsAs hr i).faults_iff.symm

end Sys2Proof.Machine
end

section
/-! PROOFS. The list of R79 (`listedFault`) against the step. -/

namespace Sys2Proof.Machine

/-! ### The opcode lists, by the row and the length it sets -/

/-- The lists hold the opcode byte of every row. -/
theorem code_mem_opcodes (op : Op) : opcodeMap.code op ∈ opcodesF0 ++ opcodesF1 ++ opcodesF2 := by
  cases op <;> decide

/-- The lists hold no byte that is no opcode. -/
theorem not_mem_opcodes_of_lookup {b : Byte} (h : opcodeMap.lookup b = none) :
    b ∉ opcodesF0 ++ opcodesF1 ++ opcodesF2 := by
  have hopcode : ∀ c ∈ opcodesF0 ++ opcodesF1 ++ opcodesF2, (opcodeMap.lookup c).isSome := by decide
  exact fun hb => by simpa [h] using hopcode b hb

theorem code_mem_opcodesF1F2 (i : Instr) : opcodeMap.code i.op ∈ opcodesF1 ++ opcodesF2 ↔ 2 ≤ i.length := by
  cases i <;> simp [Instr.op, Instr.length, Instr.operands, OpcodeMap.code, opcodeMap, opcodesF1, opcodesF2,
    opcodesRegReg]

theorem code_mem_opcodesF2 (i : Instr) : opcodeMap.code i.op ∈ opcodesF2 ↔ 3 ≤ i.length := by
  cases i <;> simp [Instr.op, Instr.length, Instr.operands, OpcodeMap.code, opcodeMap, opcodesF2, opcodesRegReg]

theorem length_le_three (i : Instr) : i.length ≤ 3 := by
  cases i <;> simp [Instr.length, Instr.operands]

/-! ### The list, at an instruction's bytes -/

section AtInstruction

variable {s : State} (i : Instr) (hop : s.mem.read s.pc.toNat = opcodeMap.code i.op)
include hop

/-- Where the instruction reaches past the last cell, the list answers `OutOfBounds(256)`. -/
theorem listedFault_past_end (hp : s.pc.toNat ≤ 255) (hfar : 256 < s.pc.toNat + i.length) :
    listedFault s = some (.outOfBounds, 256) := by
  have hlen := length_le_three i
  have h256 : s.pc.toNat ≠ 256 := by omega
  simp only [listedFault, if_neg h256, hop, code_mem_opcodes, code_mem_opcodesF1F2, code_mem_opcodesF2, not_true,
    if_false]
  by_cases h255 : s.pc.toNat = 255
  · rw [if_pos ⟨by omega, h255⟩]
  · rw [if_neg (by omega), if_pos (by omega)]

/-- Where the instruction lies in memory whole, the list answers the first of its checks that fails. -/
theorem listedFault_of_fit (hfit : s.pc.toNat + i.length ≤ 256)
    (ha : ∀ a ∈ i.operands[0]?, s.mem.read (s.pc.toNat + 1) = a)
    (hb : ∀ b ∈ i.operands[1]?, s.mem.read (s.pc.toNat + 2) = b) :
    listedFault s = firstFault (checks s i) := by
  have hlen : 1 ≤ i.length := Nat.le_add_left 1 _
  have h256 : s.pc.toNat ≠ 256 := by omega
  have hF1 : ¬ (2 ≤ i.length ∧ s.pc.toNat = 255) := by omega
  have hF2 : ¬ (3 ≤ i.length ∧ s.pc.toNat = 254) := by omega
  simp only [listedFault, if_neg h256, hop, code_mem_opcodes, code_mem_opcodesF1F2, code_mem_opcodesF2, not_true,
    if_false, if_neg hF1, if_neg hF2]
  cases i <;>
    simp [Instr.op, Instr.length, Instr.operands, OpcodeMap.code, opcodeMap, opcodesRegReg, checks] at ha hb hfit ⊢
  case ldi a b | add a b | mul a b | cmp a b => simp only [ha, hb]
  case prn a | jmp a | jeq a | jne a | push a => simp only [ha]
  case pop a =>
    rw [ha]
    by_cases h7 : a = 7#8 <;> simp [h7]
  case call a =>
    have h254 : s.pc.toNat = 254 ↔ 254 ≤ s.pc.toNat := by omega
    simp only [ha, h254]

end AtInstruction

/-- At 256 the list answers the fetch's `OutOfBounds(256)`. -/
theorem listedFault_at_256 {s : State} (hp : s.pc.toNat = 256) : listedFault s = some (.outOfBounds, 256) := by
  simp only [listedFault, if_pos hp]

/-- At a byte that is no opcode, the list answers `IllegalInstruction` with it. -/
theorem listedFault_of_illegal {s : State} (hp : s.pc.toNat ≤ 255)
    (hnone : opcodeMap.lookup (s.mem.read s.pc.toNat) = none) :
    listedFault s = some (.illegalInstruction, ((s.mem.read s.pc.toNat).toNat : Int)) := by
  have h256 : s.pc.toNat ≠ 256 := by omega
  simp only [listedFault, if_neg h256, if_pos (not_mem_opcodes_of_lookup hnone)]

/-- An instruction of any row, with any bytes as its operands, as many as the row has. -/
theorem exists_instr_of_op (op : Op) (byte : Nat → Byte) :
    ∃ i : Instr, i.op = op ∧ ∀ k (hk : k < i.operands.length), byte (k + 1) = i.operands[k] := by
  have hfetch : ∃ i, operandFetch (fun k => (.ok (byte k) : Except Exn Byte)) op = .ok i := by
    cases op <;> exact ⟨_, rfl⟩
  obtain ⟨i, hi⟩ := hfetch
  obtain ⟨hop, hoperands⟩ := operandFetch_inv hi
  exact ⟨i, hop, fun k hk => by simpa using hoperands k hk⟩

/-- From `pc` in 0..256, the step does what the list says: by what stands at `pc`, nothing, a byte that is no opcode,
an instruction that reaches past the last cell, or one that lies in memory whole. -/
theorem step_endsAs {s : State} (hr : s.run = .running) (hp : s.pc.toNat ≤ 256) :
    EndsAs s (step s) (listedFault s) := by
  by_cases h256 : s.pc.toNat = 256
  · rw [listedFault_at_256 h256]
    exact step_at_256_faults hr (BitVec.eq_of_toNat_eq h256)
  have h255 : s.pc.toNat ≤ 255 := by omega
  cases hop : opcodeMap.lookup (s.mem.read s.pc.toNat) with
  | none =>
    rw [listedFault_of_illegal h255 hop]
    exact step_illegal_faults hr h255 hop
  | some op =>
    obtain ⟨i, rfl, hoperands⟩ := exists_instr_of_op op fun k => s.mem.read (s.pc.toNat + k)
    have hcode : s.mem.read s.pc.toNat = opcodeMap.code i.op := (OpcodeMap.code_of_lookup hop).symm
    by_cases hfit : s.pc.toNat + i.length ≤ 256
    · have hoperand : ∀ k, ∀ b ∈ i.operands[k]?, s.mem.read (s.pc.toNat + (k + 1)) = b := fun k b hb => by
        obtain ⟨hk, rfl⟩ := List.getElem?_eq_some_iff.mp hb
        exact hoperands k hk
      rw [listedFault_of_fit i hcode hfit (hoperand 0) (hoperand 1), step_of_bytes hr i hfit fun k hk => ?bytes]
      case bytes =>
        cases k with
        | zero => exact hcode
        | succ k => exact hoperands k (Nat.lt_of_succ_lt_succ hk)
      exact exec_endsAs hr i
    · rw [listedFault_past_end i hcode h255 (by omega)]
      exact operandPastEndFaults_code i s hr h255 hcode (by omega)

/-- Settles O16: by what stands at `pc` (`step_endsAs`). -/
theorem stepFaultsExactlyAsListed : Obligations.StepFaultsExactlyAsListed := by
  intro s hr hp
  have h := step_endsAs hr hp
  revert h
  cases listedFault s with
  | some answer => exact id
  | none => exact id

end Sys2Proof.Machine
end

section
/-! PROOFS. HLT, PRN, ADD, MUL, CMP: result, frame and exceptions. -/

namespace Sys2Proof.Machine

/-- Settles O20: at every `pc` of memory the opcode byte alone runs HLT (`step_of_opcode`), and a halted core has no
step (`noStep_of_not_running`). -/
theorem hltHalts : Obligations.HltHalts := by
  refine ⟨rfl, fun s => ?completes, fun s hr hp hop => ?fetched⟩
  case completes => exact ⟨s.halt, rfl, rfl, rfl, fun _ _ => rfl, fun _ _ => rfl, rfl, rfl, rfl⟩
  case fetched => exact ⟨s.halt, step_of_opcode hr hp .hlt rfl hop, rfl, rfl, noStep_of_not_running nofun⟩

/-- Settles O22: by the state a valid PRN gives (`execPrn_reg`) and the two exceptions
(`faults_of_invalid_register`, `operandPastEndFaults_code`). -/
theorem prnEmitsRegister : Obligations.PrnEmitsRegister := by
  refine ⟨fun _ => rfl, fun r s => ?completes, fun a s ha => ?invalid, ?pastEnd⟩
  case completes =>
    have hlines : ((s.emit (s.getReg r)).advance 2).outLines = s.outLines ++ [decimalNumeral (s.getReg r)] := by
      simp [State.outLines]
    exact ⟨_, execPrn_reg s r, rfl, hlines, rfl, fun _ _ => rfl, fun _ _ => rfl, rfl, rfl, rfl⟩
  case invalid => exact faults_of_invalid_register s ha _
  case pastEnd => exact operandPastEndFaults_code (.prn 0#8)

/-- Settles O23: by the state a valid ADD gives (`execAdd_reg`), byte addition being addition modulo 256, and the
three exceptions. -/
theorem addWrapsModulo256 : Obligations.AddWrapsModulo256 := by
  refine ⟨fun _ _ => rfl, fun ra rb s => ?completes, fun a b s ha => ?first, fun ra b s hb => ?second, ?pastEnd⟩
  case completes =>
    refine ⟨_, execAdd_reg s ra rb, ?sum, rfl, sameRegsExcept_setReg s ra _, fun _ _ => rfl, rfl, rfl, rfl, rfl⟩
    case sum => rw [State.advance_getReg, State.getReg_setReg_self, BitVec.toNat_add]
  case first => exact faults_of_invalid_register s ha _
  case second => exact faults_of_invalid_second_register s ra hb _
  case pastEnd => exact operandPastEndFaults_code (.add 0#8 0#8)

/-- Settles O24: by the state a valid MUL gives (`execMul_reg`), byte multiplication being multiplication modulo 256,
and the three exceptions. -/
theorem mulWrapsModulo256 : Obligations.MulWrapsModulo256 := by
  refine ⟨fun _ _ => rfl, fun ra rb s => ?completes, fun a b s ha => ?first, fun ra b s hb => ?second, ?pastEnd⟩
  case completes =>
    refine ⟨_, execMul_reg s ra rb, ?product, rfl, sameRegsExcept_setReg s ra _, fun _ _ => rfl, rfl, rfl, rfl, rfl⟩
    case product => rw [State.advance_getReg, State.getReg_setReg_self, BitVec.toNat_mul]
  case first => exact faults_of_invalid_register s ha _
  case second => exact faults_of_invalid_second_register s ra hb _
  case pastEnd => exact operandPastEndFaults_code (.mul 0#8 0#8)

/-- Settles O33: both orders compute the same byte, and the byte of an integer sum or product is that of the signed
values, because taking the low byte respects addition and multiplication. -/
theorem arithmeticLaws : Obligations.ArithmeticLaws := by
  intro ra rb s
  refine ⟨_, _, _, _, execAdd_reg s ra rb, execAdd_reg s rb ra, execMul_reg s ra rb, execMul_reg s rb ra, ?_⟩
  simp only [State.advance_getReg, State.getReg_setReg_self]
  refine ⟨BitVec.add_comm _ _, BitVec.mul_comm _ _, ?sum, ?product⟩
  case sum => rw [BitVec.ofInt_add, BitVec.ofInt_toInt, BitVec.ofInt_toInt]
  case product => rw [BitVec.ofInt_mul, BitVec.ofInt_toInt, BitVec.ofInt_toInt]

section CompareFlags

variable {x y : Byte}

theorem compareFlags_of_eq (h : x.toNat = y.toNat) : compareFlags x y = flagsE :=
  if_pos (BitVec.eq_of_toNat_eq h)

theorem compareFlags_of_gt (h : x.toNat > y.toNat) : compareFlags x y = flagsG := by
  have hne : x ≠ y := fun e => by simp [e] at h
  rw [compareFlags, if_neg hne, if_pos h]

theorem compareFlags_of_lt (h : x.toNat < y.toNat) : compareFlags x y = flagsL := by
  have hne : x ≠ y := fun e => by simp [e] at h
  rw [compareFlags, if_neg hne, if_neg (by omega)]

end CompareFlags

theorem flagsE_toByte : flagsE.toByte = 0x01#8 := by decide

theorem flagsG_toByte : flagsG.toByte = 0x02#8 := by decide

theorem flagsL_toByte : flagsL.toByte = 0x04#8 := by decide

/-- Settles O25: by the state a valid CMP gives (`execCmp_reg`), whose flags are one of three (`compareFlags_of_eq`,
`compareFlags_of_gt`, `compareFlags_of_lt`), and the three exceptions. -/
theorem cmpSetsExactlyOneFlag : Obligations.CmpSetsExactlyOneFlag := by
  refine ⟨fun _ _ => rfl, fun ra rb s => ?completes, fun a b s ha => ?first, fun ra b s hb => ?second, ?pastEnd⟩
  case completes =>
    refine ⟨_, execCmp_reg s ra rb, fun h => ?eq, fun h => ?gt, fun h => ?lt, rfl, fun _ _ => rfl, fun _ _ => rfl,
      rfl, rfl, rfl⟩
    case eq =>
      rw [compareFlags_of_eq h]
      exact ⟨rfl, flagsE_toByte⟩
    case gt =>
      rw [compareFlags_of_gt h]
      exact ⟨rfl, flagsG_toByte⟩
    case lt =>
      rw [compareFlags_of_lt h]
      exact ⟨rfl, flagsL_toByte⟩
  case first => exact faults_of_invalid_register s ha _
  case second => exact faults_of_invalid_second_register s ra hb _
  case pastEnd => exact operandPastEndFaults_code (.cmp 0#8 0#8)

end Sys2Proof.Machine
end

section
/-! PROOFS. JMP, JEQ, JNE: where they lead, and that they write `pc` alone. -/

namespace Sys2Proof.Machine

/-- Settles O26: by the state a valid JMP gives (`execJmp_reg`) and the two exceptions. -/
theorem jmpLoadsPc : Obligations.JmpLoadsPc := by
  refine ⟨fun _ => rfl, fun r s => ?completes, fun a s ha => ?invalid, ?pastEnd⟩
  case completes =>
    exact ⟨_, execJmp_reg s r, toNat_zext9 _, fun _ _ => rfl, fun _ _ => rfl, rfl, rfl, rfl, rfl⟩
  case invalid => exact faults_of_invalid_register s ha _
  case pastEnd => exact operandPastEndFaults_code (.jmp 0#8)

/-- Settles O27: a JEQ writes `pc` alone (`execJeq_setPc`), the fetch at 256 raises (`step_at_256_faults`), and so do
the two exceptions. -/
theorem jeqJumpsWhenEqual : Obligations.JeqJumpsWhenEqual := by
  refine ⟨fun _ => rfl, fun r s => ?completes, fun a s ha => ?invalid, ?pastEnd⟩
  case completes =>
    refine ⟨_, execJeq_setPc s r, fun he => ?taken, fun he => ?falls, fun _ _ => rfl, fun _ _ => rfl,
      ⟨rfl, rfl, rfl, rfl⟩, fun hr he hp => ?corner⟩
    case taken => simp [he]
    case falls => simp [he]
    case corner =>
      have hpc : (s.setPc (if s.fl.e then zext9 (s.getReg r) else s.pc + 2#9)).pc = 256#9 := by simp [he, hp]
      exact ⟨hpc, step_at_256_faults hr hpc⟩
  case invalid => exact faults_of_invalid_register s ha _
  case pastEnd => exact operandPastEndFaults_code (.jeq 0#8)

/-- Settles O28: a JNE writes `pc` alone (`execJne_setPc`), and the two exceptions raise. -/
theorem jneJumpsWhenNotEqual : Obligations.JneJumpsWhenNotEqual := by
  refine ⟨fun _ => rfl, fun r s => ?completes, fun a s ha => ?invalid, ?pastEnd⟩
  case completes =>
    refine ⟨_, execJne_setPc s r, fun he => ?taken, fun he => ?falls, fun _ _ => rfl, fun _ _ => rfl,
      rfl, rfl, rfl, rfl⟩
    case taken => simp [he]
    case falls => simp [he]
  case invalid => exact faults_of_invalid_register s ha _
  case pastEnd => exact operandPastEndFaults_code (.jne 0#8)

end Sys2Proof.Machine
end

section
/-! PROOFS. PUSH, POP, CALL, RET: result, frame and exceptions. -/

namespace Sys2Proof.Machine

section Frames

variable (s : State) (r : RegIdx)

/-- A PUSH writes no register but `SP`. -/
theorem sameRegsExcept_pushed : SameRegsExcept [7] s (s.pushed r) :=
  fun q hq => by rw [pushed_getReg, if_neg (List.ne_of_not_mem_cons hq)]

/-- A POP writes no register but its own and `SP`. -/
theorem sameRegsExcept_popped : SameRegsExcept [r, 7] s (s.popped r) := by
  intro q hq
  simp only [List.mem_cons, List.not_mem_nil, or_false, not_or] at hq
  rw [popped_getReg, if_neg hq.2, if_neg hq.1]

/-- A CALL writes no register but `SP`. -/
theorem sameRegsExcept_called : SameRegsExcept [7] s (s.called r) :=
  fun q hq => by rw [called_getReg, if_neg (List.ne_of_not_mem_cons hq)]

/-- A CALL changes the one cell below `SP`. -/
theorem sameMemExcept_called (h : s.sp ≠ 0#8) : SameMemExcept [s.sp.toNat - 1] s (s.called r) := by
  intro a ha
  rw [← toNat_sub_one h] at ha
  exact called_read_of_ne s r (List.ne_of_not_mem_cons ha)

/-- A RET writes no register but `SP`. -/
theorem sameRegsExcept_returned : SameRegsExcept [7] s s.returned :=
  fun q hq => by rw [returned_getReg, if_neg (List.ne_of_not_mem_cons hq)]

end Frames

/-- Settles O29: by the state a PUSH gives (`execPush_reg`), its frame (`sameRegsExcept_pushed`,
`sameMemExcept_pushed`), and the three exceptions. -/
theorem pushStoresBelowStackPointer : Obligations.PushStoresBelowStackPointer := by
  refine ⟨fun _ => rfl, fun r s h => ?completes, fun r s h => ?zero, fun a s ha => ?invalid, ?pastEnd⟩
  case completes =>
    have hsp : (s.pushed r).sp.toNat = s.sp.toNat - 1 := by rw [pushed_sp, toNat_sub_one h]
    have hstored := pushed_read_sp s r
    rw [hsp] at hstored
    exact ⟨_, execPush_reg s r h, hsp, hstored, rfl, sameRegsExcept_pushed s r, sameMemExcept_pushed s r h,
      rfl, rfl, rfl, rfl⟩
  case zero => exact execPush_zero s r h
  case invalid => exact faults_of_invalid_register s ha _
  case pastEnd => exact operandPastEndFaults_code (.push 0#8)

/-- Settles O30: by the state a POP gives (`execPop_reg`) and its bound (`execPop_max`), which look at `SP`, or, for
register 7, at the byte popped (`popSp_of_ne`, `popSp_seven`). -/
theorem popLoadsFromStackPointer : Obligations.PopLoadsFromStackPointer := by
  refine ⟨fun _ => rfl, fun r s hr h => ?other, fun s h => ?seven, fun r s hr h => ?otherMax, fun s h => ?sevenMax,
    fun a s ha => ?invalid, ?pastEnd⟩
  case other =>
    have hpop := popSp_of_ne s r hr
    refine ⟨_, execPop_reg s r (hpop ▸ h), ?loaded, ?sp, rfl, sameRegsExcept_popped s r, fun _ _ => rfl,
      rfl, rfl, rfl, rfl⟩
    case loaded => rw [popped_getReg, if_neg hr, if_pos rfl]
    case sp => rw [popped_sp, hpop, toNat_add_one h]
  case seven =>
    have hpop := popSp_seven s
    refine ⟨_, execPop_reg s 7 (hpop ▸ h), ?sp, rfl, fun q hq => ?regs, fun _ _ => rfl, rfl, rfl, rfl, rfl⟩
    case sp => rw [popped_sp, hpop, toNat_add_one h]
    case regs => exact sameRegsExcept_popped s 7 q (by simpa using hq)
  case otherMax => exact execPop_max s r ((popSp_of_ne s r hr).trans h)
  case sevenMax => exact execPop_max s 7 ((popSp_seven s).trans h)
  case invalid => exact faults_of_invalid_register s ha _
  case pastEnd => exact operandPastEndFaults_code (.pop 0#8)

/-- A return address that CALL accepts fits a byte (D10). -/
theorem toNat_returnAddress {p : Pc} (hp : p.toNat ≤ 253) : (BitVec.ofNat 8 (p.toNat + 2)).toNat = p.toNat + 2 := by
  rw [BitVec.toNat_ofNat]
  omega

/-- Settles O31: by the state a CALL gives (`execCall_reg`), its frame (`sameRegsExcept_called`,
`sameMemExcept_called`), and the four exceptions. -/
theorem callPushesReturnAddress : Obligations.CallPushesReturnAddress := by
  refine ⟨fun _ => rfl, fun r s hp h => ?completes, fun r s hp => ?far, fun r s hp h => ?zero,
    fun a s ha => ?invalid, ?pastEnd⟩
  case completes =>
    have hstored := called_read_self s r
    rw [toNat_sub_one h] at hstored
    refine ⟨_, execCall_reg s r hp h, ?sp, ?returnAddress, toNat_zext9 _, sameRegsExcept_called s r,
      sameMemExcept_called s r h, rfl, rfl, rfl, rfl⟩
    case sp => rw [called_sp, toNat_sub_one h]
    case returnAddress => rw [hstored, toNat_returnAddress hp]
  case far => exact execCall_far s r hp
  case zero => exact execCall_zero s r hp h
  case invalid => exact faults_of_invalid_register s ha _
  case pastEnd => exact operandPastEndFaults_code (.call 0#8)

/-- Settles O32: by the state a RET gives (`execRet_ok`), its bound (`execRet_max`), and that the opcode byte alone
runs it (`step_of_opcode`). -/
theorem retPopsPc : Obligations.RetPopsPc := by
  refine ⟨rfl, fun s h => ?completes, fun s h => ?max, fun s hr hp hop => ?fetched⟩
  case completes =>
    refine ⟨_, execRet_ok s h, toNat_zext9 _, ?sp, sameRegsExcept_returned s, fun _ _ => rfl, rfl, rfl, rfl, rfl⟩
    case sp => rw [returned_sp, toNat_add_one h]
  case max => exact execRet_max s h
  case fetched => exact step_of_opcode hr hp .ret rfl hop

end Sys2Proof.Machine
end

section
/-! PROOFS. Reset, the accesses to memory, the words of the specification. -/

namespace Sys2Proof.Machine

/-- Settles O1: each field of the reset state, the registers one by one. -/
theorem resetHoldsSpecValues : Obligations.ResetHoldsSpecValues := by
  refine ⟨reset_mem_read, ?registers, rfl, rfl, ?flags, rfl, rfl, rfl⟩
  case registers => decide
  case flags => decide

/-- Settles O3: `Init` decides by the length alone, and the first byte after reset is 0, which is no opcode
(`step_illegal_faults`). -/
theorem initRefusesLongImage : Obligations.InitRefusesLongImage := by
  refine ⟨fun image hlen => ?refused, init_ok (Nat.zero_le _), ?faults, rfl⟩
  case refused => rw [init, if_neg (Nat.not_le.mpr hlen)]
  case faults => exact step_illegal_faults (s := State.reset) rfl (Nat.zero_le _) (by decide)

/-- Settles O17: by the two answers of `memRead`, outside its bounds and inside. -/
theorem memReadChecksBounds : Obligations.MemReadChecksBounds :=
  fun s _ => ⟨memRead_error s, memRead_ok s⟩

end Sys2Proof.Machine

namespace Sys2Proof

/-- Settles O4: each word begins with the encoding of its instruction (`decodeWith_encodeWith_append`), but for the
byte 0, which begins none. -/
theorem specWordsDecode : Obligations.SpecWordsDecode := by
  have hdecode : ∀ i rest, decode (encode i ++ rest) = .ok (i, rest) :=
    decodeWith_encodeWith_append opcodeMap_distinct
  refine ⟨hdecode (.ldi 0#8 8#8) [0b01000111#8], hdecode (.prn 0#8) [], hdecode .hlt [], hdecode (.add 7#8 1#8) [],
    hdecode (.cmp 1#8 3#8) [], hdecode (.jne 4#8) [], hdecode (.call 1#8) [], hdecode .ret [0b11111111#8],
    ?illegal, ?tableWord⟩
  case illegal => rfl
  case tableWord => rw [decodeTableWord, show tableBytes 24 0x080082 = encode (.ldi 0#8 8#8) ++ [] by decide, hdecode]

end Sys2Proof
end

section
/-! PROOFS. What the host sees: the flags as a byte (R16) and the printed numeral (R144). -/

namespace Sys2Proof.Machine

/-- Settles O47: bit k is the flag that stands at k (`toByteWith_getLsbD`), and the positions are distinct. -/
theorem flagsByteIsLGE : Obligations.FlagsByteIsLGE := by
  have hbits : ∀ p : FlagLayout, p.Distinct → ∀ f : Flags,
      (f.toByteWith p).getLsbD p.e = f.e ∧ (f.toByteWith p).getLsbD p.g = f.g ∧ (f.toByteWith p).getLsbD p.l = f.l ∧
      ∀ k : Nat, k ≠ p.e → k ≠ p.g → k ≠ p.l → (f.toByteWith p).getLsbD k = false := by
    rintro p ⟨heg, hel, hgl⟩ f
    rw [Ne, Fin.ext_iff] at heg hel hgl
    simp only [toByteWith_getLsbD]
    refine ⟨?e, ?g, ?l, fun k he hg hl => ?other⟩
    case e => simp [heg, hel]
    case g => simp [Ne.symm heg, hgl]
    case l => simp [Ne.symm hel, Ne.symm hgl]
    case other => simp [he, hg, hl]
  refine ⟨hbits, flagLayout_distinct, fun f => ?_⟩
  obtain ⟨he, hg, hl, hother⟩ := hbits flagLayout flagLayout_distinct f
  refine ⟨he, hg, hl, fun k hk => hother k ?_ ?_ ?_⟩ <;> simp [flagLayout] <;> omega

/-- The character of a decimal digit is one, has the digit's value, and is `0` for 0 alone. -/
theorem digitChar_spec {d : Nat} (h : d < 10) :
    d.digitChar.isDigit = true ∧ d.digitChar.toNat - 48 = d ∧ (d.digitChar = '0' → d = 0) := by
  interval_cases d <;> decide

/-- Settles O48: by the number of digits, each of which is read back by `digitChar_spec`. -/
theorem numeralIsDecimal : Obligations.NumeralIsDecimal := by
  intro v
  have hlt := v.isLt
  rw [decimalNumeral]
  split_ifs with h10 h100
  case pos =>
    obtain ⟨hdigit, hvalue, hlead⟩ := digitChar_spec h10
    refine ⟨nofun, by simp [hdigit], by simp [hvalue], fun h => ?_⟩
    have hzero : v = 0#8 := BitVec.eq_of_toNat_eq (hlead (by simpa using h))
    simp [hzero]
  case pos =>
    obtain ⟨htens, htensValue, hlead⟩ := digitChar_spec (d := v.toNat / 10) (by omega)
    obtain ⟨hones, honesValue, -⟩ := digitChar_spec (d := v.toNat % 10) (by omega)
    refine ⟨nofun, by simp [htens, hones], ?value, fun h => ?leading⟩
    case value =>
      simp only [List.foldl_cons, List.foldl_nil, htensValue, honesValue]
      omega
    case leading =>
      have := hlead (by simpa using h)
      omega
  case neg =>
    obtain ⟨hhundreds, hhundredsValue, hlead⟩ := digitChar_spec (d := v.toNat / 100) (by omega)
    obtain ⟨htens, htensValue, -⟩ := digitChar_spec (d := v.toNat / 10 % 10) (by omega)
    obtain ⟨hones, honesValue, -⟩ := digitChar_spec (d := v.toNat % 10) (by omega)
    refine ⟨nofun, by simp [hhundreds, htens, hones], ?value, fun h => ?leading⟩
    case value =>
      simp only [List.foldl_cons, List.foldl_nil, hhundredsValue, htensValue, honesValue]
      omega
    case leading =>
      have := hlead (by simpa using h)
      omega

end Sys2Proof.Machine
end

section
/-! PROOFS. Sequences of stack instructions (R125, R128, R129). -/

namespace Sys2Proof.Machine

/-- The last of `k + 1` executions runs from where the first `k` end. -/
theorem repeatExec_succ {i : Instr} {k : Nat} {s t : State} (h : repeatExec i k s = .next t) :
    repeatExec i (k + 1) s = exec i t := by
  induction k generalizing s with
  | zero =>
    obtain rfl : s = t := by simpa [repeatExec] using h
    obtain ⟨u, hu⟩ := exec_answers_next i s
    simp [repeatExec, hu]
  | succ k ih =>
    obtain ⟨u, hu⟩ := exec_answers_next i s
    have hrest : ∀ n, repeatExec i (n + 1) s = repeatExec i n u := fun n => by simp [repeatExec, hu]
    rw [hrest] at h ⊢
    exact ih h

/-- Up to `SP` pushes complete, each with `SP` one lower and `pc` two further. -/
theorem repeatExec_push (r : RegIdx) {s : State} (hr : s.run = .running) {k : Nat} (hk : k ≤ s.sp.toNat) :
    ∃ t, repeatExec (.push (regByte r)) k s = .next t ∧ t.run = .running ∧ t.sp.toNat = s.sp.toNat - k ∧
      t.pc = s.pc + BitVec.ofNat 9 (2 * k) := by
  induction k with
  | zero => exact ⟨s, rfl, hr, rfl, (BitVec.add_zero s.pc).symm⟩
  | succ k ih =>
    obtain ⟨t, hrep, hrun, hsp, hpc⟩ := ih (by omega)
    have h0 : t.sp ≠ 0#8 := fun h => by
      rw [h, BitVec.toNat_ofNat] at hsp
      omega
    refine ⟨t.pushed r, (repeatExec_succ hrep).trans (execPush_reg t r h0), hrun, ?sp, ?pc⟩
    case sp =>
      rw [pushed_sp, toNat_sub_one h0]
      omega
    case pc => rw [pushed_pc, hpc, BitVec.add_assoc, ← BitVec.ofNat_add, Nat.mul_succ]

/-- Settles O36: by induction on the number of pushes (`repeatExec_push`), after which `SP` is 0 and the next raises
(`execPush_zero`). -/
theorem pushesCompleteUntilStackPointerZero : Obligations.PushesCompleteUntilStackPointerZero := by
  refine ⟨fun r s k hr hk => repeatExec_push r hr hk, fun r s hr => ?next, rfl⟩
  case next =>
    obtain ⟨t, hrep, -, hsp, -⟩ := repeatExec_push r hr (Nat.le_refl s.sp.toNat)
    have h0 : t.sp = 0#8 := BitVec.eq_of_toNat_eq (by simpa using hsp)
    exact ⟨t, _, hrep, (repeatExec_succ hrep).trans (execPush_zero t r h0), rfl⟩

/-- `SP` after an LDI into register 7 is the immediate. -/
theorem sp_setReg_seven (s : State) (v : Byte) : (s.setReg 7 v).sp = v := State.sp_setSp s v

/-- Settles O37: LDI into register 7 sets `SP` (`sp_setReg_seven`); POP reads the cell there, and PUSH writes the one
below. -/
theorem anyCellThroughStackPointer : Obligations.AnyCellThroughStackPointer := by
  refine ⟨fun r a s hr ha => ?load, fun r a s hr ha => ?store⟩
  case load =>
    have hsp : ((s.setReg 7 a).advance 3).sp = a := sp_setReg_seven s a
    have hpop : ((s.setReg 7 a).advance 3).popSp r = a := (popSp_of_ne _ r hr).trans hsp
    refine ⟨_, _, execLdi_reg s 7 a, execPop_reg _ r (by rwa [hpop]), ?loaded, fun _ _ => rfl⟩
    case loaded =>
      rw [popped_getReg, if_neg hr, if_pos rfl, hsp]
      rfl
  case store =>
    have hsp : ((s.setReg 7 (a + 1#8)).advance 3).sp = a + 1#8 := sp_setReg_seven s _
    have h0 : a + 1#8 ≠ 0#8 := by bv_omega
    have hcell : ((s.setReg 7 (a + 1#8)).advance 3).sp - 1#8 = a := by rw [hsp, BitVec.add_sub_cancel]
    refine ⟨_, _, execLdi_reg s 7 (a + 1#8), execPush_reg _ r (by rwa [hsp]), ?stored, fun b hb => ?frame⟩
    case stored =>
      have hread := pushed_read_self ((s.setReg 7 (a + 1#8)).advance 3) r
      rw [hcell, pushed_getReg, if_neg hr] at hread
      exact hread.trans (State.getReg_setReg_of_ne s _ hr)
    case frame =>
      refine pushed_read_of_ne _ r ?_
      rw [hcell]
      exact List.ne_of_not_mem_cons hb

/-- One below a byte that is not 0 is not 255. -/
theorem sub_one_ne_max {v : Byte} (h : v ≠ 0#8) : v - 1#8 ≠ 255#8 := by bv_omega

/-- Settles O38: RET reads back what PUSH stored (`pushed_read_sp`), and POP what CALL stored
(`called_read_self`). -/
theorem returnAddressesAreData : Obligations.ReturnAddressesAreData := by
  refine ⟨fun r s h => ?pushRet, fun r q s h hp hq => ?callPop⟩
  case pushRet =>
    refine ⟨_, _, execPush_reg s r h, execRet_ok _ (by simpa using sub_one_ne_max h), ?pc, ?sp⟩
    case pc => rw [returned_pc, pushed_read_sp]
    case sp => rw [returned_sp, pushed_sp, BitVec.sub_add_cancel]
  case callPop =>
    have hpop : (s.called r).popSp q = s.sp - 1#8 := (popSp_of_ne _ q hq).trans (called_sp s r)
    refine ⟨_, _, execCall_reg s r hp h, execPop_reg _ q (hpop ▸ sub_one_ne_max h), ?loaded, ?sp⟩
    case loaded => rw [popped_getReg, if_neg hq, if_pos rfl, called_sp, called_read_self, toNat_returnAddress hp]
    case sp => rw [popped_sp, hpop, BitVec.sub_add_cancel]

end Sys2Proof.Machine
end

section
/-! PROOFS. What a step of any instruction can change: flags, memory, registers, `pc`. -/

namespace Sys2Proof.Machine

/-! ### The flags (R17, R116) -/

/-- The three flags of a comparison are the three comparisons of the bytes as unsigned numbers (R110). -/
theorem compareFlags_eq_decide (x y : Byte) :
    compareFlags x y = { e := decide (x.toNat = y.toNat), g := decide (x.toNat > y.toNat),
                         l := decide (x.toNat < y.toNat) } := by
  obtain h | h | h := Nat.lt_trichotomy x.toNat y.toNat
  · rw [compareFlags_of_lt h]
    simp [flagsL, h, Nat.ne_of_lt h, Nat.le_of_lt h]
  · rw [compareFlags_of_eq h]
    simp [flagsE, h]
  · rw [compareFlags_of_gt h]
    simp [flagsG, h, Nat.ne_of_gt h, Nat.le_of_lt h]

/-- Only a CMP of two registers writes `FL`, and it writes the flags of the comparison. -/
theorem exec_fl {i : Instr} {s t : State} (h : exec i s = .next t) :
    t.fl = s.fl ∨ ∃ ra rb : RegIdx, i = .cmp (regByte ra) (regByte rb) ∧
      t.fl = compareFlags (s.getReg ra) (s.getReg rb) := by
  refine exec_elim (P := fun i t => t.fl = s.fl ∨ ∃ ra rb : RegIdx, i = .cmp (regByte ra) (regByte rb) ∧
      t.fl = compareFlags (s.getReg ra) (s.getReg rb)) ?raise ?hlt
    ?ldi ?prn ?add ?mul ?cmp ?jmp ?jeq ?jne ?push ?pop ?call ?ret h
  case cmp => exact fun ra rb => .inr ⟨ra, rb, rfl, rfl⟩
  case jeq | jne =>
    intro r
    rw [State.branch_eq_setPc]
    exact .inl rfl
  all_goals (intros; exact .inl rfl)

/-- Settles O40: by what an instruction does to `FL` (`exec_fl`), the flags of a comparison being the three
comparisons (`compareFlags_eq_decide`). -/
theorem onlyCmpWritesFlags : Obligations.OnlyCmpWritesFlags := by
  intro s t h
  obtain ⟨-, ⟨e, -, rfl⟩ | ⟨i, hf, hx⟩⟩ := step_cases h
  · exact .inl rfl
  · obtain hsame | ⟨ra, rb, rfl, hfl⟩ := exec_fl hx
    · exact .inl hsame
    · exact .inr ⟨ra, rb, hf, hfl.trans (compareFlags_eq_decide _ _)⟩

/-- `t'` is `t` but for `FL`, with the same E; and `FL` is the same in both, or each has the `FL` it started with, `t`
that of `s` and `t'` the flags `f`. -/
def AlikeButFlags (s : State) (f : Flags) (t t' : State) : Prop :=
  t'.fl.e = t.fl.e ∧ { t' with fl := t.fl } = t ∧ (t'.fl = t.fl ∨ t'.fl = f ∧ t.fl = s.fl)

/-- Two outcomes that differ in the `FL` they started with are alike. -/
theorem alikeButFlags_of_kept {s t : State} {f : Flags} (he : f.e = s.fl.e) (h : t.fl = s.fl) :
    AlikeButFlags s f t { t with fl := f } :=
  ⟨he.trans (congrArg Flags.e h).symm, rfl, .inr ⟨rfl, h⟩⟩

/-- An instruction runs alike from flags that agree in E. -/
theorem exec_alikeButFlags {i : Instr} {s t : State} {f : Flags} (he : f.e = s.fl.e) (h : exec i s = .next t) :
    ∃ t', exec i { s with fl := f } = .next t' ∧ AlikeButFlags s f t t' := by
  refine exec_elim_pair (s := s) (u := { s with fl := f }) (P := fun _ => AlikeButFlags s f)
    rfl rfl rfl ?raise ?hlt ?ldi ?prn ?add ?mul ?cmp ?jmp ?jeq ?jne ?push ?pop ?call ?ret h
  case cmp => exact fun _ _ => ⟨rfl, rfl, .inl rfl⟩
  case jeq | jne =>
    intro r
    rw [State.branch_eq_setPc, State.branch_eq_setPc, he]
    exact alikeButFlags_of_kept he rfl
  all_goals (intros; exact alikeButFlags_of_kept he rfl)

/-- Settles O41: the fetch does not see `FL`, and an instruction sees E alone (`exec_alikeButFlags`). -/
theorem greaterAndLessAreNeverRead : Obligations.GreaterAndLessAreNeverRead := by
  intro s t f he h
  exact step_elim_pair (s := s) (u := { s with fl := f }) (P := AlikeButFlags s f) rfl rfl rfl
    (fun e => alikeButFlags_of_kept he rfl) (fun i _ hx => exec_alikeButFlags he hx) h

/-! ### Memory (R33, R129) -/

/-- A cell reads as before, or it is one of the listed ones. -/
theorem SameMemExcept.eq_or_mem {written : List Nat} {s t : State} (h : SameMemExcept written s t) (a : Nat) :
    t.mem.read a = s.mem.read a ∨ a ∈ written :=
  or_iff_not_imp_right.mpr (h a)

/-- What R33 allows an instruction that changes the cell `a`: a PUSH or a CALL, and `a` the cell below `SP`. -/
def StoresBelowSp (s : State) (a : Nat) (fetched : Except Exn Instr) : Prop :=
  s.sp ≠ 0#8 ∧ a = s.sp.toNat - 1 ∧ ∃ r : RegIdx, fetched = .ok (.push (regByte r)) ∨ fetched = .ok (.call (regByte r))

/-- A cell reads as before an instruction, or the instruction is a PUSH or a CALL and the cell the one below `SP`. -/
theorem exec_read {i : Instr} {s t : State} (a : Nat) (h : exec i s = .next t) :
    t.mem.read a = s.mem.read a ∨ StoresBelowSp s a (.ok i) := by
  refine exec_elim (P := fun i t => t.mem.read a = s.mem.read a ∨ StoresBelowSp s a (.ok i)) ?raise ?hlt
    ?ldi ?prn ?add ?mul ?cmp ?jmp ?jeq ?jne ?push ?pop ?call ?ret h
  case push =>
    intro r h0
    exact ((sameMemExcept_pushed s r h0).eq_or_mem a).imp_right fun ha =>
      ⟨h0, List.eq_of_mem_singleton ha, r, .inl rfl⟩
  case call =>
    intro r _ h0
    exact ((sameMemExcept_called s r h0).eq_or_mem a).imp_right fun ha =>
      ⟨h0, List.eq_of_mem_singleton ha, r, .inr rfl⟩
  case jeq | jne =>
    intro r
    rw [State.branch_eq_setPc]
    exact .inl rfl
  all_goals (intros; exact .inl rfl)

/-- Settles O42: a raise changes no cell, and an instruction only the one below `SP` (`exec_read`). -/
theorem onlyPushAndCallStore : Obligations.OnlyPushAndCallStore := by
  intro s t a h hne
  obtain ⟨-, ⟨e, -, rfl⟩ | ⟨i, hf, hx⟩⟩ := step_cases h
  · exact absurd rfl hne
  · rw [hf]
    exact (exec_read a hx).resolve_left hne

/-! ### Registers (R12, R13) -/

/-- A register holds what it held, or it is one of the listed ones. -/
theorem SameRegsExcept.eq_or_mem {written : List RegIdx} {s t : State} (h : SameRegsExcept written s t) (r : RegIdx) :
    t.getReg r = s.getReg r ∨ r ∈ written :=
  or_iff_not_imp_right.mpr (h r)

/-- The writers of register `r`: an instruction that names it first, or, for the stack pointer, a stack instruction. -/
def WritesRegister (r : RegIdx) (fetched : Except Exn Instr) : Prop :=
  (∃ b, fetched ∈ [Except.ok (.ldi (regByte r) b), .ok (.add (regByte r) b), .ok (.mul (regByte r) b),
      .ok (.pop (regByte r))]) ∨
    (r = 7 ∧ ∃ a, fetched ∈ [Except.ok (.push a), .ok (.pop a), .ok (.call a), .ok .ret])

/-- A register holds what it held before an instruction, or the instruction is one of its writers. -/
theorem exec_getReg {i : Instr} {s t : State} (r : RegIdx) (h : exec i s = .next t) :
    t.getReg r = s.getReg r ∨ WritesRegister r (.ok i) := by
  refine exec_elim (P := fun i t => t.getReg r = s.getReg r ∨ WritesRegister r (.ok i)) ?raise ?hlt
    ?ldi ?prn ?add ?mul ?cmp ?jmp ?jeq ?jne ?push ?pop ?call ?ret h
  case ldi =>
    intro q b
    refine ((sameRegsExcept_setReg s q b).eq_or_mem r).imp_right fun hr => .inl ⟨b, ?_⟩
    simp [List.eq_of_mem_singleton hr]
  case add | mul =>
    intro q p
    refine ((sameRegsExcept_setReg s q _).eq_or_mem r).imp_right fun hr => .inl ⟨regByte p, ?_⟩
    simp [List.eq_of_mem_singleton hr]
  case push =>
    intro q _
    exact ((sameRegsExcept_pushed s q).eq_or_mem r).imp_right fun hr =>
      .inr ⟨List.eq_of_mem_singleton hr, regByte q, by simp⟩
  case pop =>
    intro q _
    refine ((sameRegsExcept_popped s q).eq_or_mem r).imp_right fun hr => ?_
    obtain rfl | hr := List.mem_cons.mp hr
    · exact .inl ⟨0#8, by simp⟩
    · exact .inr ⟨List.eq_of_mem_singleton hr, regByte q, by simp⟩
  case call =>
    intro q _ _
    exact ((sameRegsExcept_called s q).eq_or_mem r).imp_right fun hr =>
      .inr ⟨List.eq_of_mem_singleton hr, regByte q, by simp⟩
  case ret =>
    intro _
    exact ((sameRegsExcept_returned s).eq_or_mem r).imp_right fun hr =>
      .inr ⟨List.eq_of_mem_singleton hr, 0#8, by simp⟩
  case jeq | jne =>
    intro q
    rw [State.branch_eq_setPc]
    exact .inl rfl
  all_goals (intros; exact .inl rfl)

/-- Settles O43: a raise writes no register, and an instruction those it is a writer of (`exec_getReg`). -/
theorem registerWritersAreListed : Obligations.RegisterWritersAreListed := by
  intro s t r h hne
  obtain ⟨-, ⟨e, -, rfl⟩ | ⟨i, hf, hx⟩⟩ := step_cases h
  · exact absurd rfl hne
  · rw [hf]
    exact (exec_getReg r hx).resolve_left hne

/-! ### The program counter (R14, R73) -/

/-- What R14 allows an instruction that takes `pc` out of memory: a fall-through to 256, of a two-byte instruction at
254 or a three-byte one at 253. -/
def FallsThroughTo256 (s t : State) (fetched : Except Exn Instr) : Prop :=
  t.pc = 256#9 ∧
    ((s.pc = 254#9 ∧ ∃ a, fetched ∈ [Except.ok (.prn a), .ok (.jeq a), .ok (.jne a), .ok (.push a), .ok (.pop a)]) ∨
     (s.pc = 253#9 ∧ ∃ a b, fetched ∈ [Except.ok (.ldi a b), .ok (.add a b), .ok (.mul a b), .ok (.cmp a b)]))

/-- An instruction of `n` bytes that lies in memory falls through to a cell, or from the last place it fits to 256. -/
theorem add_le_or {p last : Pc} {n : Nat} (hlast : last.toNat + n = 256) (h : p.toNat + n ≤ 256) :
    (p + BitVec.ofNat 9 n).toNat ≤ 255 ∨ p + BitVec.ofNat 9 n = 256#9 ∧ p = last := by
  by_cases hp : p = last
  · subst hp
    refine .inr ⟨BitVec.eq_of_toNat_eq ?_, rfl⟩
    simp only [BitVec.toNat_add, BitVec.toNat_ofNat]
    omega
  · have hne : p.toNat ≠ last.toNat := fun e => hp (BitVec.eq_of_toNat_eq e)
    refine .inl ?_
    simp only [BitVec.toNat_add, BitVec.toNat_ofNat]
    omega

/-- An instruction that lies in memory whole leaves `pc` in memory, or falls through to 256. -/
theorem exec_pc {i : Instr} {s t : State} (hp : s.pc.toNat ≤ 255) (hfit : s.pc.toNat + i.length ≤ 256)
    (h : exec i s = .next t) : t.pc.toNat ≤ 255 ∨ FallsThroughTo256 s t (.ok i) := by
  have two := add_le_or (p := s.pc) (last := 254#9) (n := 2) rfl
  have three := add_le_or (p := s.pc) (last := 253#9) (n := 3) rfl
  revert hfit
  refine exec_elim (P := fun i t => s.pc.toNat + i.length ≤ 256 → t.pc.toNat ≤ 255 ∨ FallsThroughTo256 s t (.ok i))
    ?raise ?hlt ?ldi ?prn ?add ?mul ?cmp ?jmp ?jeq ?jne ?push ?pop ?call ?ret h
  case raise => exact fun _ _ _ _ => .inl hp
  case hlt => exact fun _ => .inl hp
  case ldi =>
    exact fun q b hfit => (three hfit).imp_right fun ⟨ht, hs⟩ => ⟨ht, .inr ⟨hs, regByte q, b, by simp⟩⟩
  case add | mul | cmp =>
    exact fun q p hfit => (three hfit).imp_right fun ⟨ht, hs⟩ =>
      ⟨ht, .inr ⟨hs, regByte q, regByte p, by simp⟩⟩
  case prn =>
    exact fun q hfit => (two hfit).imp_right fun ⟨ht, hs⟩ => ⟨ht, .inl ⟨hs, regByte q, by simp⟩⟩
  case push | pop =>
    exact fun q _ hfit => (two hfit).imp_right fun ⟨ht, hs⟩ => ⟨ht, .inl ⟨hs, regByte q, by simp⟩⟩
  case jeq | jne =>
    intro q hfit
    split
    · exact .inl (toNat_zext9_le _)
    · exact (two hfit).imp_right fun ⟨ht, hs⟩ => ⟨ht, .inl ⟨hs, regByte q, by simp⟩⟩
  case jmp => exact fun _ _ => .inl (toNat_zext9_le _)
  case call => exact fun _ _ _ _ => .inl (toNat_zext9_le _)
  case ret => exact fun _ _ => .inl (toNat_zext9_le _)

/-- Settles O44: a raise leaves `pc`, and an instruction fetched whole takes it to a cell or falls through to 256
(`exec_pc`), where the next fetch raises (`step_at_256_faults`). -/
theorem pcLeavesMemoryOnlyByFallThrough : Obligations.PcLeavesMemoryOnlyByFallThrough := by
  refine ⟨fun s t hp h hout => ?leaves, fun s hr hp => ?faults⟩
  case leaves =>
    obtain ⟨-, ⟨e, -, rfl⟩ | ⟨i, hf, hx⟩⟩ := step_cases h
    · exact absurd hp (Nat.not_le.mpr hout)
    · obtain ⟨hfit, -, -⟩ := fetch_inv hf
      rw [hf]
      exact (exec_pc hp hfit hx).resolve_left (Nat.not_le.mpr hout)
  case faults =>
    rw [show step s = _ from step_at_256_faults hr hp, hp]

end Sys2Proof.Machine
end
